-- ==== Sys2Proof/Word.lean ====
section
/-! DEFINITION. The word types of the Q64.64 unit (spec/00_scope.md section 5.1, spec/30_encoding.md R40, R41). -/

namespace Sys2Proof

/-- A `bv128`: the contents of a data register, of `DIN` and of `rsp.dout`. Bit 127 is the most significant. -/
abbrev Word := BitVec 128

/-- The 8-bit command word `CW` (R40). -/
abbrev CommandWord := BitVec 8

/-- The 3-bit error code of `rsp.err` and `ST.ERR` (R41, R16). -/
abbrev ErrorCode := BitVec 3

end Sys2Proof
end

