-- ==== Sys2Proof/Syntax.lean ====
section
/-! DEFINITION. Commands and instructions (spec/30_encoding.md R40, R42, R43). -/

namespace Sys2Proof

/-- A command as the host presents it (R40): the command word `CW` and the data word `DIN`. -/
structure Command where
  cw : CommandWord
  din : Word
deriving DecidableEq, Repr

/-- One constructor per legal command word (R43). `WRA` and `WRB` carry their operand `DIN`; no other command has an
operand of its own, since operands stand in `A` and `B` (R42). -/
inductive Instr where
  /-- 0x01, R51: write `A`. -/
  | wra (din : Word)
  /-- 0x02, R52: write `B`. -/
  | wrb (din : Word)
  /-- 0x03, R53: read `R`. -/
  | rdr
  /-- 0x04, R54: read `ST`. -/
  | rdst
  /-- 0x10, R60: plain signed integer to FixedPoint. -/
  | fromint
  /-- 0x11, R61: FixedPoint to plain signed integer. -/
  | toint
  /-- 0x12, R62: FixedPoint to plain non-negative integer. -/
  | touint
  /-- 0x13, R63: plain unsigned integer to FixedPoint. -/
  | fromuint
  /-- 0x20, R70: sum. -/
  | add
  /-- 0x21, R71: difference. -/
  | sub
  /-- 0x22, R72: absolute value. -/
  | abs
  /-- 0x23, R73: reciprocal. -/
  | inv
  /-- 0x24, R74: arithmetic mean. -/
  | avg
  /-- 0x25, R75: geometric mean. -/
  | gavg
  /-- 0x26, R76: product. -/
  | mul
  /-- 0x27, R77: quotient. -/
  | div
  /-- 0x28, R78: arithmetic shift. -/
  | shift
  /-- 0x30, R90: integer power. -/
  | pow
  /-- 0x31, R91: square root. -/
  | sqrt
  /-- 0x40, R100: base-2 logarithm. -/
  | log2
  /-- 0x41, R101: base-2 exponential. -/
  | exp2
  /-- 0x42, R102: natural exponential. -/
  | exp
deriving DecidableEq, Repr

/-- Why a command decodes to no instruction. -/
inductive DecodeError where
  /-- The command word is none of the 22 of R43 (R44). -/
  | illegalCommand (cw : CommandWord)
deriving DecidableEq, Repr

end Sys2Proof
end

