-- ==== Sys2Proof/WellFormed.lean ====
section
/-! DEFINITION. Which commands are legal (spec/30_encoding.md R40, R43, R44), written from the two fields of the command
word, apart from the decoder; and well-formedness of instructions and commands. -/

namespace Sys2Proof

/-- `GRP = CW[7:4]` (R40). -/
def CommandWord.grp (cw : CommandWord) : Nat := (cw.extractLsb' 4 4).toNat

/-- `IDX = CW[3:0]` (R40). -/
def CommandWord.idx (cw : CommandWord) : Nat := (cw.extractLsb' 0 4).toNat

/-- The 22 legal command words by group and index: indices from 1 in group 0, from 0 in groups 1 to 4, no other
group (R40, R43, R44). -/
def legalCommandWord (cw : CommandWord) : Bool :=
  match CommandWord.grp cw with
  | 0 => decide (1 ≤ CommandWord.idx cw ∧ CommandWord.idx cw ≤ 4)
  | 1 => decide (CommandWord.idx cw ≤ 3)
  | 2 => decide (CommandWord.idx cw ≤ 8)
  | 3 => decide (CommandWord.idx cw ≤ 1)
  | 4 => decide (CommandWord.idx cw ≤ 2)
  | _ => false

/-- A command is well formed when its command word is legal; its data word may be anything (R11, R44). -/
def Command.wellFormed (c : Command) : Bool := legalCommandWord c.cw

/-- Every instruction is well formed: the only field of any is the `DIN` of `WRA` and `WRB`, and "every `bv128` is
accepted" (R51, R52). -/
def Instr.wellFormed : Instr → Bool
  | .wra _ | .wrb _ | .rdr | .rdst => true
  | .fromint | .toint | .touint | .fromuint => true
  | .add | .sub | .abs | .inv | .avg | .gavg | .mul | .div | .shift => true
  | .pow | .sqrt => true
  | .log2 | .exp2 | .exp => true

/-- The `EXEC` commands: groups 1 to 4 (R43, R55). -/
def Instr.isExec : Instr → Bool
  | .wra _ | .wrb _ | .rdr | .rdst => false
  | .fromint | .toint | .touint | .fromuint => true
  | .add | .sub | .abs | .inv | .avg | .gavg | .mul | .div | .shift => true
  | .pow | .sqrt => true
  | .log2 | .exp2 | .exp => true

/-- The eight operations that read `B` (R42, R57, R142). -/
def Instr.readsB : Instr → Bool
  | .wra _ | .wrb _ | .rdr | .rdst => false
  | .fromint | .toint | .touint | .fromuint => false
  | .abs | .inv => false
  | .add | .sub | .avg | .gavg | .mul | .div | .shift => true
  | .pow => true
  | .sqrt => false
  | .log2 | .exp2 | .exp => false

end Sys2Proof
end

