-- ==== Sys2Proof/Decode.lean ====
section
/-! DEFINITION. The decoder and the encoder (spec/30_encoding.md R40, R43, R44; spec/opcode_table.json), and how the bits of
a command are numbered. -/

namespace Sys2Proof

/-- The opcode map of R43. `DIN` is used by `WRA` and `WRB` and ignored by every other command (R40, R57); every command
word not in the table is illegal (R44). -/
def decode (c : Command) : Except DecodeError Instr :=
  match c.cw.toNat with
  | 0x01 => .ok (.wra c.din)
  | 0x02 => .ok (.wrb c.din)
  | 0x03 => .ok .rdr
  | 0x04 => .ok .rdst
  | 0x10 => .ok .fromint
  | 0x11 => .ok .toint
  | 0x12 => .ok .touint
  | 0x13 => .ok .fromuint
  | 0x20 => .ok .add
  | 0x21 => .ok .sub
  | 0x22 => .ok .abs
  | 0x23 => .ok .inv
  | 0x24 => .ok .avg
  | 0x25 => .ok .gavg
  | 0x26 => .ok .mul
  | 0x27 => .ok .div
  | 0x28 => .ok .shift
  | 0x30 => .ok .pow
  | 0x31 => .ok .sqrt
  | 0x40 => .ok .log2
  | 0x41 => .ok .exp2
  | 0x42 => .ok .exp
  | _ => .error (.illegalCommand c.cw)

/-- The command of an instruction (R43): its command word, and as `DIN` its operand, or 0 where it has none (R45: "its
`DIN` is written as 0 in an encoding"). -/
def encode : Instr → Command
  | .wra din => ⟨0x01, din⟩
  | .wrb din => ⟨0x02, din⟩
  | .rdr => ⟨0x03, 0⟩
  | .rdst => ⟨0x04, 0⟩
  | .fromint => ⟨0x10, 0⟩
  | .toint => ⟨0x11, 0⟩
  | .touint => ⟨0x12, 0⟩
  | .fromuint => ⟨0x13, 0⟩
  | .add => ⟨0x20, 0⟩
  | .sub => ⟨0x21, 0⟩
  | .abs => ⟨0x22, 0⟩
  | .inv => ⟨0x23, 0⟩
  | .avg => ⟨0x24, 0⟩
  | .gavg => ⟨0x25, 0⟩
  | .mul => ⟨0x26, 0⟩
  | .div => ⟨0x27, 0⟩
  | .shift => ⟨0x28, 0⟩
  | .pow => ⟨0x30, 0⟩
  | .sqrt => ⟨0x31, 0⟩
  | .log2 => ⟨0x40, 0⟩
  | .exp2 => ⟨0x41, 0⟩
  | .exp => ⟨0x42, 0⟩

/-- The 136 bits of a command as one number: `CW` in bits 7:0, as spec/opcode_table.json numbers them, and `DIN` above
it in bits 135:8. DESIGN CHOICE (log entry 13): the spec gives `CW` and `DIN` as two words side by side and no order
between them. -/
def Command.toBits (c : Command) : Nat := c.cw.toNat + 2 ^ 8 * c.din.toNat

/-- The command whose bits are the low `nbits` bits of `w`, every bit above them 0. -/
def Command.ofBits (nbits w : Nat) : Command :=
  ⟨BitVec.ofNat 8 (w % 2 ^ nbits), BitVec.ofNat 128 (w % 2 ^ nbits / 2 ^ 8)⟩

/-- The instruction the decoder reads from a command whose bits are `w`, `nbits` of them given. -/
def decodeTableWord (nbits w : Nat) : Option Instr :=
  match decode (Command.ofBits nbits w) with
  | .ok i => some i
  | .error _ => none

end Sys2Proof
end

