-- ==== Sys2Proof/Config.lean ====
section
/-! DEFINITION. What the spec leaves unspecified about one unit: the contents of `A`, `B` and `R` after a reset
(spec/10_state.md R27, spec/93_implementation_defined.md U1). Each is an opaque value: nothing in Lean can say which word
it is, so no theorem can depend on it.

The free contents may differ from one reset to the next, and they may depend on what the registers held before (the
registers are "not cleared", spec/92_eei_decisions.md D18), so each is read at the number of the reset and at the old
contents of `A`, `B`, `R`, `ST.ERR` and `ST.RV`. -/

namespace Sys2Proof

/-- What the unit held when a reset was applied. -/
structure Config.Before where
  a : Word
  b : Word
  r : Word
  err : ErrorCode
  rv : Bool
deriving DecidableEq, Repr

/-- DESIGN CHOICE (log entry 1): the contents of `A` after reset number `n`; "unspecified" in R27. -/
opaque Config.resetA (n : Nat) (before : Config.Before) : Word

/-- DESIGN CHOICE (log entry 1): the contents of `B` after reset number `n`; "unspecified" in R27. -/
opaque Config.resetB (n : Nat) (before : Config.Before) : Word

/-- DESIGN CHOICE (log entry 1): the contents of `R` after reset number `n`; "unspecified" in R27. -/
opaque Config.resetR (n : Nat) (before : Config.Before) : Word

end Sys2Proof
end

