-- ==== Sys2Proof/Machine/State.lean ====
section
/-! DEFINITION. The state of the unit and of its port (spec/10_state.md R13 to R17, R23, R27; spec/30_encoding.md R41), the
error kinds (spec/60_exceptions.md R120), the reasons a step can stop, and the state after reset. -/

namespace Sys2Proof.Machine

/-- The four error kinds an operation can fail with (R120, codes 1 to 4). -/
inductive FailKind where
  /-- Code 1: the exact result, or an operand, is out of range. -/
  | overflow
  /-- Code 2: the divisor of `DIV` or the operand of `INV` is zero. -/
  | divisionByZero
  /-- Code 3: `SQRT` of a negative value, `LOG2` of a value `<= 0`, `GAVG` of a negative product. -/
  | domainError
  /-- Code 4: `TOUINT` of a negative value. -/
  | negativeValue
deriving DecidableEq, Repr

/-- The five error kinds of the unit (R120): those of the operations, and the illegal command word. -/
inductive ErrorKind where
  /-- An operation failed (R122). -/
  | operation (k : FailKind)
  /-- Code 5: the command word is not one of the 22 legal values (R128). -/
  | illegalCommand
deriving DecidableEq, Repr

/-- What an operation `F_op` returns (spec/00_scope.md section 5.3): `Ok(v)` or `Fail(k)`. -/
inductive Result where
  | ok (v : Word)
  | fail (k : FailKind)
deriving DecidableEq, Repr

/-- The written part of the status register `ST` (R16): `ERR` in bits 2:0 and `RV` in bit 3. Bits 7:4 "read as 0; never
written" and are not stored; `Status.toWord` supplies them (log entry 8). -/
structure Status where
  err : ErrorCode
  rv : Bool
deriving DecidableEq, Repr

/-- A response (R41): `rsp.err` and `rsp.dout`. -/
structure Response where
  err : ErrorCode
  dout : Word
deriving DecidableEq, Repr

/-- What the host does to the unit: it issues a command (R50), or it applies reset (R140), which may find a command in
progress. -/
inductive Input where
  | command (c : Command)
  | reset (inProgress : Option Command)
deriving DecidableEq, Repr

/-- The unit's registers `A`, `B`, `R`, `ST` (R13 to R16, R23), the response to the most recent command (R41), the inputs
the host has issued and the unit has not taken yet (the model's own, log entry 3), and the number of resets taken (the
model's own, log entry 2). The ROM is a constant, `Rom` (R22). -/
structure State where
  /-- `A`, the first operand register (R13). -/
  a : Word
  /-- `B`, the second operand register (R14). -/
  b : Word
  /-- `R`, the result register (R15). -/
  r : Word
  /-- `ST`, the status register (R16). -/
  st : Status
  /-- The response to the most recent command since reset, if there was one (R41, R50). -/
  rsp : Option Response
  /-- The host's inputs still to be taken, in issue order (R35). -/
  inputs : List Input
  /-- How many resets the unit has taken. -/
  resets : Nat
deriving DecidableEq, Repr

/-- The faults of the unit: none, since "every command in every state completes with a response"
(spec/93_implementation_defined.md section 1; R50, R55, R127). No step raises one, by its type. Safe: log entry 16. -/
inductive Fault
deriving DecidableEq, Repr

/-- The refusals of the model. -/
inductive Refusal where
  /-- Raised by an arm of exec whose instruction has no meaning yet; no arm does. Safe: the model stops. -/
  | notModelled (mnemonic : String)
deriving DecidableEq, Repr

/-- What `A`, `B`, `R` and `ST` hold, as the free reset contents of Config may depend on it. -/
def State.before (s : State) : Config.Before := ⟨s.a, s.b, s.r, s.st.err, s.st.rv⟩

/-- The machine right after its first reset (R27, R140): `ST.ERR = 0`, `ST.RV = 0`; `A`, `B`, `R` unspecified, so free
values of Config (DESIGN CHOICE, log entry 1). No response has been given and no input is pending (DESIGN CHOICE, log
entries 3 and 4). Before the first reset the spec says nothing of the registers; the argument `⟨0, 0, 0, 0, false⟩`
of the opaque constants stands for that and says nothing of them either. -/
def State.reset : State where
  a := Config.resetA 0 ⟨0, 0, 0, 0, false⟩
  b := Config.resetB 0 ⟨0, 0, 0, 0, false⟩
  r := Config.resetR 0 ⟨0, 0, 0, 0, false⟩
  st := ⟨0, false⟩
  rsp := none
  inputs := []
  resets := 1

end Sys2Proof.Machine
end

