-- ==== Sys2Proof/Machine/Flags.lean ====
section
/-! DEFINITION. The status register: error codes, what the host reads, and the two values written (spec/10_state.md R16, R17;
spec/60_exceptions.md R120). The unit has no other flag (R25). -/

namespace Sys2Proof.Machine

/-- The codes of R120. -/
def FailKind.code : FailKind → ErrorCode
  | .overflow => 1
  | .divisionByZero => 2
  | .domainError => 3
  | .negativeValue => 4

/-- The codes of R120, the illegal command word among them. -/
def ErrorKind.code : ErrorKind → ErrorCode
  | .operation k => k.code
  | .illegalCommand => 5

/-- `ST` as the host reads it (R16): bits 7:4 read as 0, bit 3 is `RV`, bits 2:0 are `ERR`. -/
def Status.toWord (st : Status) : BitVec 8 := 0#4 ++ BitVec.ofBool st.rv ++ st.err

/-- The status of a successful `EXEC` (R55): `RV = 1`, `ERR = 0`. -/
def Status.success : Status := ⟨0, true⟩

/-- The status of a failure (R122, R128): `RV = 0`, `ERR` the code. -/
def Status.failure (e : ErrorKind) : Status := ⟨e.code, false⟩

/-- `ST` after reset (R27): `ERR = 0`, `RV = 0`. -/
def Status.atReset : Status := ⟨0, false⟩

end Sys2Proof.Machine
end

