-- ==== Sys2Proof/Machine/Operands.lean ====
section
/-! DEFINITION. How a `bv128` is read as an integer and written from one (spec/00_scope.md R1 and section 5.2; spec/10_state.md
R10, R11, R12), and how an operation reads its operand registers (spec/30_encoding.md R42). -/

namespace Sys2Proof.Machine

/-- `S(v)`: the signed, two's-complement integer (00_scope.md section 5.2); the raw value of a FixedPoint (R10). -/
abbrev signed (v : Word) : Int := v.toInt

/-- `U(v)`: the unsigned integer (00_scope.md section 5.2). -/
abbrev unsigned (v : Word) : Nat := v.toNat

/-- `MIN_RAW = -2^127` (R1, R11). -/
def minRaw : Int := -2 ^ 127

/-- `MAX_RAW = 2^127 - 1` (R1, R11). -/
def maxRaw : Int := 2 ^ 127 - 1

/-- `ONE = 2^64`, the raw value of 1.0 (R1). -/
def oneRaw : Int := 2 ^ 64

/-- `inrange(z)` (00_scope.md section 5.2). -/
def inRange (z : Int) : Bool := decide (minRaw ≤ z ∧ z ≤ maxRaw)

/-- `enc(z)`: the `bv128` that spells `z`, for `z` in range (00_scope.md section 5.2). -/
def enc (z : Int) : Word := BitVec.ofInt 128 z

/-- The operand `x` of an operation that reads `A` as FixedPoint, or `n` where it reads `A` as a signed plain integer
(R12, R42). -/
abbrev rawOf (v : Word) : Int := signed v

/-- The signed plain integer of `FROMINT`'s `A` and of `SHIFT`'s `B` (R12, R42). -/
abbrev signedPlain (v : Word) : Int := signed v

/-- The unsigned plain integer of `FROMUINT`'s `A` and of `POW`'s `B` (R12, R42). -/
abbrev unsignedPlain (v : Word) : Nat := unsigned v

end Sys2Proof.Machine
end

