-- ==== Sys2Proof/Machine/Ops.lean ====
section
/-! DEFINITION. The shared operations: the integer functions of the spec's notation (spec/00_scope.md sections 5.2 and 5.3,
spec/43_power_root.md R92), and the operations on the state: answering a read or a write, committing the outcome of an
`EXEC` (spec/40_interface_commands.md R55), taking an error (spec/60_exceptions.md R122, R128) and taking a reset
(spec/70_reset_and_hazards.md R140). The unit has no return from an error (R127). -/

namespace Sys2Proof.Machine

/-- `fdiv(a, b)`: the floor of the exact quotient, at every sign combination (00_scope.md section 5.2, R79). -/
def floorDiv (a b : Int) : Int := Int.fdiv a b

/-- `asr(z, k) = fdiv(z, 2^k)` (00_scope.md section 5.2). -/
def asr (z : Int) (k : Nat) : Int := floorDiv z (2 ^ k)

/-- `bit(z, i)` for `z >= 0` (00_scope.md section 5.2). -/
def bitAt (z i : Nat) : Nat := z / 2 ^ i % 2

/-- `msb(z)` for `z > 0`, the position of the highest set bit (00_scope.md section 5.2). -/
def msb (z : Nat) : Nat := Nat.log2 z

/-- `x & y & 1`: 1 exactly when both are odd (00_scope.md section 5.2). -/
def bothOdd (x y : Int) : Int := if x % 2 = 1 ∧ y % 2 = 1 then 1 else 0

/-- The iterations `i = k - 1 downto 0` of the digit-by-digit root of R92, from the partial root `r`. -/
def isqrtLoop : Nat → Nat → Nat → Nat
  | 0, _, r => r
  | k + 1, z, r => isqrtLoop k z (if (r + 2 ^ k) * (r + 2 ^ k) ≤ z then r + 2 ^ k else r)

/-- `isqrt_ref(z, k)` of R92, for `z < 2^(2k)`. -/
def isqrtRef (z k : Nat) : Nat := isqrtLoop k z 0

/-- `isqrt(z)`, the largest `r` with `r * r <= z` (00_scope.md section 5.2), for `z < 2^256`: the reference datapath of
R92 with `k = 128`, enough for `GAVG` and for `SQRT` (log entry 12). -/
def isqrt (z : Nat) : Nat := isqrtRef z 128

/-- `ret(z)`: `Ok(enc(z))` in range, else Overflow (00_scope.md section 5.3). -/
def ret (z : Int) : Result := if inRange z then .ok (enc z) else .fail .overflow

/-- Where one operation's function calls another's, a `Fail` of the inner ends the outer with the same kind and an
`Ok(v)` yields `v` (00_scope.md section 5.3). -/
def Result.andThen : Result → (Word → Result) → Result
  | .ok v, f => f v
  | .fail k, _ => .fail k

/-- A command that succeeds and writes neither `R` nor `ST` answers `rsp.err = 0` and `dout` (R50). -/
def answer (dout : Word) (s : State) : State := { s with rsp := some ⟨0, dout⟩ }

/-- Taking an error, the one operation for all five kinds (R122, R128): `ST.RV` is cleared, `ST.ERR` and `rsp.err` get
the code, `rsp.dout` is 0, and `A`, `B`, `R` are unchanged. Nothing is saved and control goes nowhere (R127). -/
def takeError (e : ErrorKind) (s : State) : State := { s with st := Status.failure e, rsp := some ⟨e.code, 0⟩ }

/-- What an `EXEC` commits (R55): on `Ok(v)` it writes `R`, sets `RV`, clears `ERR` and answers 0; on `Fail(k)` it takes
the error (R122). `A` and `B` are never written (R18). -/
def commitResult (res : Result) (s : State) : State :=
  match res with
  | .ok v => { s with r := v, st := Status.success, rsp := some ⟨0, 0⟩ }
  | .fail k => takeError (.operation k) s

/-- Taking a reset (R140, R27): `ST` is 0 and `A`, `B`, `R` are unspecified, so free values of Config at the number of
this reset (log entry 1). "A command in progress when reset is applied is abandoned: it produces no response and
commits nothing", so no response is left and `inProgress` has no effect. -/
def takeReset (_inProgress : Option Command) (s : State) : State :=
  { s with
    a := Config.resetA s.resets s.before
    b := Config.resetB s.resets s.before
    r := Config.resetR s.resets s.before
    st := Status.atReset
    rsp := none
    resets := s.resets + 1 }

/-- The effect of a command whose `CW` is illegal (R128): it takes the error IllegalCommand, whatever `DIN` holds. -/
def illegalCommand (_c : Command) (s : State) : State := takeError .illegalCommand s

/-- With no input pending nothing happens: "Between commands it is idle and holds its state" (R130, R126). -/
def idle (s : State) : State := s

/-- The state once the first pending input has been taken off the list (R35: issue order). -/
def takenInput (rest : List Input) (s : State) : State := { s with inputs := rest }

/-- The host issues a command that the unit takes next (R50). -/
def issueNext (c : Command) (s : State) : State := { s with inputs := .command c :: s.inputs }

end Sys2Proof.Machine
end

