-- ==== Sys2Proof/Machine/Conversion.lean ====
section
/-! DEFINITION. The representation and conversion operations `FROMINT`, `TOINT`, `TOUINT`, `FROMUINT` (spec/41_conversion.md R60 to
R63). None reads `B` (R57). -/

namespace Sys2Proof.Machine

/-- `F_FROMINT` (R60). -/
def fFromint (a : Word) : Result :=
  if signedPlain a < -2 ^ 63 ∨ signedPlain a > 2 ^ 63 - 1 then .fail .overflow
  else .ok (enc (signedPlain a * 2 ^ 64))

/-- `F_TOINT` (R61): floor toward negative infinity. -/
def fToint (a : Word) : Result := .ok (enc (asr (rawOf a) 64))

/-- `F_TOUINT` (R62): the test is on the whole value. -/
def fTouint (a : Word) : Result :=
  if rawOf a < 0 then .fail .negativeValue else .ok (enc (asr (rawOf a) 64))

/-- `F_FROMUINT` (R63). -/
def fFromuint (a : Word) : Result :=
  if unsignedPlain a ≥ 2 ^ 63 then .fail .overflow else .ok (enc (unsignedPlain a * 2 ^ 64))

/-- `FROMINT` (R60, R55). -/
def execFromint (s : State) : Host.Outcome State Fault Refusal := .next (commitResult (fFromint s.a) s)

/-- `TOINT` (R61, R55). -/
def execToint (s : State) : Host.Outcome State Fault Refusal := .next (commitResult (fToint s.a) s)

/-- `TOUINT` (R62, R55). -/
def execTouint (s : State) : Host.Outcome State Fault Refusal := .next (commitResult (fTouint s.a) s)

/-- `FROMUINT` (R63, R55). -/
def execFromuint (s : State) : Host.Outcome State Fault Refusal := .next (commitResult (fFromuint s.a) s)

end Sys2Proof.Machine
end

