-- ==== Sys2Proof/Machine/Rom.lean ====
section
/-! DEFINITION. The constant ROM (spec/10_state.md R19 to R22): "immutable state: no command writes it, it has no reset
transition", and "A model takes the ROM as a configuration constant" (log entry 7). -/

namespace Sys2Proof.Machine

/-- `ROM.ONE`, the FixedPoint value 1.0 (R19). -/
def Rom.one : Word := 0x00000000000000010000000000000000

/-- `ROM.LOG2E`, `floor(log2(e) * 2^64)` as a FixedPoint value (R20). -/
def Rom.log2e : Word := 0x000000000000000171547652B82FE177

/-- Entries 1 to 16 of `ROM.T` (R21). -/
def Rom.rows1 : List Nat := [
  0xB504F333F9DE6484597D89B3754ABE9F, 0x9837F0518DB8A96F46AD23182E42F6F6,
  0x8B95C1E3EA8BD6E6FBE4628758A53C90, 0x85AAC367CC487B14C5C95B8C2154C1B2,
  0x82CD8698AC2BA1D73E2A475B46520BFF, 0x8164D1F3BC0307737BE56527BD14DEF4,
  0x80B1ED4FD999AB6C25335719B6E6FD20, 0x8058D7D2D5E5F6B094D589F608EE4AA2,
  0x802C6436D0E04F50FF8CE94A6797B3CE, 0x8016302F174676283690DFE44D11D008,
  0x800B179C82028FD0945E54E2AE18F2F0, 0x80058BAF7FEE3B5D1C718B38E549CB93,
  0x8002C5D00FDCFCB6B6566A58C048BE1F, 0x800162E61BED4A48E84C2E1A463473D9,
  0x8000B17292F702A3AA22BEACCA949013, 0x800058B92ABBAE02030C5FA5256F41FE]

/-- Entries 17 to 32 of `ROM.T` (R21). -/
def Rom.rows2 : List Nat := [
  0x80002C5C8DADE4D71776C0F4DBEA67D6, 0x8000162E44EAF636526BE456600BDBE4,
  0x80000B1721FA7C188307016C1CD4E8B6, 0x8000058B90DE7E4CECFC487503488BB1,
  0x800002C5C8678F36CBFCE50A6DE60B14, 0x80000162E431DB9F80B2347B5D62E516,
  0x800000B1721872D0C7B08CF1E0114152, 0x80000058B90C1AA8A5C3736CB77E8DFF,
  0x8000002C5C8605A4635F2EFC2362D978, 0x800000162E4300E635CF4A109E3939BD,
  0x8000000B17217FF81BEF9C551590CF83, 0x800000058B90BFDD4E39CD52C0CFA27C,
  0x80000002C5C85FE6F72D669E0E76E411, 0x8000000162E42FF18F9AD35186D0DF28,
  0x80000000B17217F84CCE71AA0DCFFFE7, 0x8000000058B90BFC07A77AD56ED22AAA]

/-- Entries 33 to 48 of `ROM.T` (R21). -/
def Rom.rows3 : List Nat := [
  0x800000002C5C85FDFC23CDEAD40DA8D6, 0x80000000162E42FEFC25EB1571853A66,
  0x800000000B17217F7D97F692BAACDED5, 0x80000000058B90BFBEAD3B8B5DD254D7,
  0x8000000002C5C85FDF4EEDD62F084E67, 0x800000000162E42FEFA58AEF378BF586,
  0x8000000000B17217F7D24A78A3C7EF02, 0x800000000058B90BFBE9067C93E474A6,
  0x80000000002C5C85FDF47B8E5A72599F, 0x8000000000162E42FEFA3BDB315934A2,
  0x80000000000B17217F7D1D7299B49C46, 0x8000000000058B90BFBE8E9A8D1C4EA0,
  0x800000000002C5C85FDF4745969EA76F, 0x80000000000162E42FEFA3A0DF5373BF,
  0x800000000000B17217F7D1CFF4AAC1E1, 0x80000000000058B90BFBE8E7DB95A2F1]

/-- Entries 49 to 64 of `ROM.T` (R21). -/
def Rom.rows4 : List Nat := [
  0x8000000000002C5C85FDF473E61AE1F8, 0x800000000000162E42FEFA39F121751C,
  0x8000000000000B17217F7D1CF815BB96, 0x800000000000058B90BFBE8E7BEC1E0D,
  0x80000000000002C5C85FDF473DEE5F17, 0x8000000000000162E42FEFA39EF5438F,
  0x80000000000000B17217F7D1CF7A26C8, 0x8000000000000058B90BFBE8E7BCF4A4,
  0x800000000000002C5C85FDF473DE72A2, 0x80000000000000162E42FEFA39EF3765,
  0x800000000000000B17217F7D1CF79B37, 0x80000000000000058B90BFBE8E7BCD7D,
  0x8000000000000002C5C85FDF473DE6B6, 0x800000000000000162E42FEFA39EF359,
  0x8000000000000000B17217F7D1CF79AC, 0x800000000000000058B90BFBE8E7BCD6]

/-- The 64 entries of `ROM.T`, entry `i` at position `i - 1` (R21). -/
def Rom.rows : List Nat := Rom.rows1 ++ Rom.rows2 ++ Rom.rows3 ++ Rom.rows4

/-- `ROM.T[i]` for `i = 1 .. 64` (R21), in Q1.127 format: `floor(2^(2^-i) * 2^127)`. -/
def Rom.t (i : Nat) : Word := BitVec.ofNat 128 (Rom.rows.getD (i - 1) 0)

end Sys2Proof.Machine
end

