-- ==== Sys2Proof/Machine/CoreArithmetic.lean ====
section
/-! DEFINITION. The core arithmetic operations `ADD`, `SUB`, `ABS`, `INV`, `AVG`, `GAVG`, `MUL`, `DIV`, `SHIFT`
(spec/42_core_arithmetic.md R70 to R78). Every discarded bit is floored (R79) and no result is wrapped (R25, R122). -/

namespace Sys2Proof.Machine

/-- `F_ADD` (R70). -/
def fAdd (a b : Word) : Result := ret (rawOf a + rawOf b)

/-- `F_SUB` (R71). -/
def fSub (a b : Word) : Result := ret (rawOf a - rawOf b)

/-- `F_ABS` (R72). -/
def fAbs (a : Word) : Result :=
  if rawOf a = -2 ^ 127 then .fail .overflow
  else if rawOf a < 0 then .ok (enc (-rawOf a)) else .ok a

/-- `F_INV` (R73): DivisionByZero is tested first (R124). -/
def fInv (a : Word) : Result :=
  if rawOf a = 0 then .fail .divisionByZero else ret (floorDiv (2 ^ 128) (rawOf a))

/-- `F_AVG` (R74): never fails. -/
def fAvg (a b : Word) : Result := .ok (enc (asr (rawOf a) 1 + asr (rawOf b) 1 + bothOdd (rawOf a) (rawOf b)))

/-- `F_GAVG` (R75): DomainError is tested on the product, before the root (R124). -/
def fGavg (a b : Word) : Result :=
  if rawOf a * rawOf b < 0 then .fail .domainError else ret (isqrt (rawOf a * rawOf b).toNat)

/-- `F_MUL` (R76): the exact product, floored, then the range test. -/
def fMul (a b : Word) : Result := ret (asr (rawOf a * rawOf b) 64)

/-- `F_DIV` (R77): DivisionByZero is tested first, whatever the dividend (R124). -/
def fDiv (a b : Word) : Result :=
  if rawOf b = 0 then .fail .divisionByZero else ret (floorDiv (rawOf a * 2 ^ 64) (rawOf b))

/-- `x * 2^n` for a count `n >= 0` (R78), computed without the power where the power alone decides: "`x = 0` gives 0 for
every `s`" and "for `x != 0` every `s >= 128` fails" (log entry 11). -/
def shiftLeftBy (x : Int) (n : Nat) : Result :=
  if x = 0 then .ok (enc 0)
  else if n < 128 then ret (x * 2 ^ n)
  else .fail .overflow

/-- `asr(x, n)` for a count `n > 0` (R78), with every `n` above 128 taken as 128: "for `s <= -127` the result is 0 when
`x >= 0` and -1 when `x < 0`" (log entry 11). -/
def shiftRightBy (x : Int) (n : Nat) : Result := .ok (enc (asr x (min n 128)))

/-- `F_SHIFT` (R78): the count is the whole signed `B`, "never reduced modulo 128". -/
def fShift (a b : Word) : Result :=
  if signedPlain b ≥ 0 then shiftLeftBy (rawOf a) (signedPlain b).toNat
  else shiftRightBy (rawOf a) (-signedPlain b).toNat

/-- `ADD` (R70, R55). -/
def execAdd (s : State) : Host.Outcome State Fault Refusal := .next (commitResult (fAdd s.a s.b) s)

/-- `SUB` (R71, R55): `A` is the minuend. -/
def execSub (s : State) : Host.Outcome State Fault Refusal := .next (commitResult (fSub s.a s.b) s)

/-- `ABS` (R72, R55). -/
def execAbs (s : State) : Host.Outcome State Fault Refusal := .next (commitResult (fAbs s.a) s)

/-- `INV` (R73, R55). -/
def execInv (s : State) : Host.Outcome State Fault Refusal := .next (commitResult (fInv s.a) s)

/-- `AVG` (R74, R55). -/
def execAvg (s : State) : Host.Outcome State Fault Refusal := .next (commitResult (fAvg s.a s.b) s)

/-- `GAVG` (R75, R55). -/
def execGavg (s : State) : Host.Outcome State Fault Refusal := .next (commitResult (fGavg s.a s.b) s)

/-- `MUL` (R76, R55). -/
def execMul (s : State) : Host.Outcome State Fault Refusal := .next (commitResult (fMul s.a s.b) s)

/-- `DIV` (R77, R55): `A` is the dividend. -/
def execDiv (s : State) : Host.Outcome State Fault Refusal := .next (commitResult (fDiv s.a s.b) s)

/-- `SHIFT` (R78, R55). -/
def execShift (s : State) : Host.Outcome State Fault Refusal := .next (commitResult (fShift s.a s.b) s)

end Sys2Proof.Machine
end

