-- ==== Sys2Proof/Machine/Interface.lean ====
section
/-! DEFINITION. The interface commands `WRA`, `WRB`, `RDR`, `RDST` (spec/40_interface_commands.md R51 to R54). They never fail and
leave `ST` alone (R17, R121). -/

namespace Sys2Proof.Machine

/-- `WRA` (R51): `A <- DIN`, answer 0. -/
def execWra (din : Word) (s : State) : Host.Outcome State Fault Refusal := .next (answer 0 { s with a := din })

/-- `WRB` (R52): `B <- DIN`, answer 0. -/
def execWrb (din : Word) (s : State) : Host.Outcome State Fault Refusal := .next (answer 0 { s with b := din })

/-- `RDR` (R53): answer `R`, whatever `ST.RV` is. -/
def execRdr (s : State) : Host.Outcome State Fault Refusal := .next (answer s.r s)

/-- `RDST` (R54): answer `zext_128(ST)`. -/
def execRdst (s : State) : Host.Outcome State Fault Refusal := .next (answer (s.st.toWord.setWidth 128) s)

end Sys2Proof.Machine
end

