-- ==== Sys2Proof/Machine/PowerRoot.lean ====
section
/-! DEFINITION. The power and root operations `POW` and `SQRT` (spec/43_power_root.md R90, R91). -/

namespace Sys2Proof.Machine

/-- The `while e != 0` loop of R90 for exponents below `2^fuel`: multiply into `result` where the low bit of `e` is 1,
halve `e`, and square `base` only while a higher bit remains. A `Fail` of any `F_MUL` ends the loop. -/
def powLoop : Nat → Word → Word → Nat → Result
  | 0, result, _, _ => .ok result
  | fuel + 1, result, base, e =>
    if e = 0 then .ok result
    else
      (if e % 2 = 1 then fMul result base else .ok result).andThen fun result' =>
        if e / 2 = 0 then .ok result'
        else (fMul base base).andThen fun base' => powLoop fuel result' base' (e / 2)

/-- `F_POW` (R90): the loop runs "at most 128" times, since the exponent has 128 bits. -/
def fPow (a b : Word) : Result := powLoop 128 Rom.one a (unsignedPlain b)

/-- `F_SQRT` (R91). -/
def fSqrt (a : Word) : Result :=
  if rawOf a < 0 then .fail .domainError else .ok (enc (isqrt (rawOf a * 2 ^ 64).toNat))

/-- `POW` (R90, R55). -/
def execPow (s : State) : Host.Outcome State Fault Refusal := .next (commitResult (fPow s.a s.b) s)

/-- `SQRT` (R91, R55). -/
def execSqrt (s : State) : Host.Outcome State Fault Refusal := .next (commitResult (fSqrt s.a) s)

end Sys2Proof.Machine
end

