-- ==== Sys2Proof/Machine/Transcendental.lean ====
section
/-! DEFINITION. The transcendental operations `LOG2`, `EXP2`, `EXP` as the exact integer datapaths of
spec/44_transcendental.md R100, R101, R102. The source's one-ULP claim is no part of them (R103). -/

namespace Sys2Proof.Machine

/-- The last `n` of the 64 iterations of R100: iteration `i = 65 - n` squares `m`, emits bit 255 of the square with weight
`2^(64 - i) = 2^(n - 1)`, and renormalises `m` to Q1.127 with floor. -/
def log2Loop : Nat → Nat → Int → Int
  | 0, _, res => res
  | n + 1, m, res =>
    log2Loop n (m * m / 2 ^ (127 + bitAt (m * m) 255)) (res + bitAt (m * m) 255 * 2 ^ n)

/-- `F_LOG2` (R100). -/
def fLog2 (a : Word) : Result :=
  if rawOf a ≤ 0 then .fail .domainError
  else
    .ok (enc (log2Loop 64 ((rawOf a).toNat * 2 ^ (127 - msb (rawOf a).toNat)) (((msb (rawOf a).toNat : Int) - 64) * 2 ^ 64)))

/-- The last `n` of the 64 table steps of R101: step `i = 65 - n` tests fraction bit `64 - i = n - 1` and multiplies by
`ROM.T[i]`, truncating to Q1.127. -/
def exp2Loop : Nat → Nat → Nat → Nat
  | 0, _, m => m
  | n + 1, f, m => exp2Loop n f (if bitAt f n = 1 then m * unsigned (Rom.t (64 - n)) / 2 ^ 127 else m)

/-- `2^f` as a FixedPoint raw value, for a fraction `f` (R101): the product in Q1.127, floored to 64 fraction bits. -/
def exp2Fraction (f : Nat) : Nat := exp2Loop 64 f (2 ^ 127) / 2 ^ 63

/-- `F_EXP2` (R101): the domain `[-63, 63)`, then `2^f` scaled by the unit's own `SHIFT` with the count `k`. -/
def fExp2 (a : Word) : Result :=
  if rawOf a < -63 * 2 ^ 64 ∨ rawOf a ≥ 63 * 2 ^ 64 then .fail .overflow
  else
    fShift (enc (exp2Fraction (rawOf a - asr (rawOf a) 64 * 2 ^ 64).toNat)) (enc (asr (rawOf a) 64))

/-- `F_EXP` (R102): `F_EXP2` of the product with `ROM.LOG2E`; a failure of the product is `EXP`'s own. -/
def fExp (a : Word) : Result := (fMul a Rom.log2e).andThen fExp2

/-- `LOG2` (R100, R55). -/
def execLog2 (s : State) : Host.Outcome State Fault Refusal := .next (commitResult (fLog2 s.a) s)

/-- `EXP2` (R101, R55). -/
def execExp2 (s : State) : Host.Outcome State Fault Refusal := .next (commitResult (fExp2 s.a) s)

/-- `EXP` (R102, R55). -/
def execExp (s : State) : Host.Outcome State Fault Refusal := .next (commitResult (fExp s.a) s)

end Sys2Proof.Machine
end

