-- ==== Sys2Proof/Machine/Dispatch.lean ====
section
/-! DEFINITION. The meaning of every instruction, one arm each (spec/30_encoding.md R43). -/

namespace Sys2Proof.Machine

def exec (i : Instr) (s : State) : Host.Outcome State Fault Refusal :=
  match i with
  | .wra din => Sys2Proof.Machine.execWra din s
  | .wrb din => Sys2Proof.Machine.execWrb din s
  | .rdr => Sys2Proof.Machine.execRdr s
  | .rdst => Sys2Proof.Machine.execRdst s
  | .fromint => Sys2Proof.Machine.execFromint s
  | .toint => Sys2Proof.Machine.execToint s
  | .touint => Sys2Proof.Machine.execTouint s
  | .fromuint => Sys2Proof.Machine.execFromuint s
  | .add => Sys2Proof.Machine.execAdd s
  | .sub => Sys2Proof.Machine.execSub s
  | .abs => Sys2Proof.Machine.execAbs s
  | .inv => Sys2Proof.Machine.execInv s
  | .avg => Sys2Proof.Machine.execAvg s
  | .gavg => Sys2Proof.Machine.execGavg s
  | .mul => Sys2Proof.Machine.execMul s
  | .div => Sys2Proof.Machine.execDiv s
  | .shift => Sys2Proof.Machine.execShift s
  | .pow => Sys2Proof.Machine.execPow s
  | .sqrt => Sys2Proof.Machine.execSqrt s
  | .log2 => Sys2Proof.Machine.execLog2 s
  | .exp2 => Sys2Proof.Machine.execExp2 s
  | .exp => Sys2Proof.Machine.execExp s

end Sys2Proof.Machine
end

