-- ==== Sys2Proof/Machine/Step.lean ====
section
/-! DEFINITION. One step of the unit: it takes the oldest pending input (spec/20_memory.md R35). A command is performed whole,
with its response, in one step (R34, R50); a reset is R140; with no input pending the unit is idle (R130). -/

namespace Sys2Proof.Machine

/-- One step: total, and never a fault or a refusal (R50, R55: "an `EXEC` always completes and always answers"). -/
def step (s : State) : Host.Outcome State Fault Refusal :=
  match s.inputs with
  | [] => .next (idle s)
  | .reset inProgress :: rest => .next (takeReset inProgress (takenInput rest s))
  | .command c :: rest =>
    match decode c with
    | .ok i => exec i (takenInput rest s)
    | .error _ => .next (illegalCommand c (takenInput rest s))

/-- `s` with the command whose bits are the low `nbits` bits of `w`, the bits above them 0, issued by the host as the
very next input (log entries 3 and 13). -/
def State.withFetchWord (s : State) (nbits w : Nat) : State := issueNext (Command.ofBits nbits w) s

end Sys2Proof.Machine
end

