-- ==== Sys2Proof/Machine/Assembler.lean ====
section
/-! DEFINITION. The host's command sequences (spec/30_encoding.md R45, R46): the lines of the spec's assembler as data, what
command each stands for, the pseudo-instructions by their expansions, and a host that issues a sequence line by line.
"they add nothing to the unit" (R46): nothing here is part of step. -/

namespace Sys2Proof.Machine

/-- The data operand of a `WRA` or `WRB` line (R45). -/
inductive Datum where
  /-- A 128-bit hexadecimal literal. -/
  | hex (v : Word)
  /-- `int(n)`, the plain integer `enc(n)`. -/
  | int (n : Int)
  /-- `fx(n)`, the FixedPoint value `enc(n * 2^64)`. -/
  | fx (n : Int)
  /-- `$`, the `rsp.dout` of the most recent `RDR` earlier in the same sequence. -/
  | lastRead
deriving DecidableEq, Repr

/-- One line of a command sequence (R45). -/
inductive Line where
  | wra (d : Datum)
  | wrb (d : Datum)
  /-- A command with no data operand; its `DIN` is written as 0. -/
  | plain (i : Instr)
  /-- `.word hh`: the command word `hh` with `DIN` 0. -/
  | word (cw : CommandWord)
deriving DecidableEq, Repr

/-- The word a data operand stands for, `none` where R45 gives it none: an `int` or `fx` out of its range, or `$` with
no earlier `RDR` (DESIGN CHOICE, log entry 15). -/
def Datum.value (lastRead : Option Word) : Datum → Option Word
  | .hex v => some v
  | .int n => if inRange n then some (enc n) else none
  | .fx n => if -2 ^ 63 ≤ n ∧ n ≤ 2 ^ 63 - 1 then some (enc (n * 2 ^ 64)) else none
  | .lastRead => lastRead

/-- The command a line stands for (R45: "The encoding of one line is the pair `CW:DIN`"). -/
def Line.command (lastRead : Option Word) : Line → Option Command
  | .wra d => (d.value lastRead).map fun v => encode (.wra v)
  | .wrb d => (d.value lastRead).map fun v => encode (.wrb v)
  | .plain i => some (encode i)
  | .word cw => some ⟨cw, 0⟩

/-- `CALL1 op, a` (R46), which R46 defines "for an operation that does not read `B`". DESIGN CHOICE (log entry 17): any
other command has the same expansion, and one that reads `B` finds what `B` held. -/
def call1 (op : Instr) (a : Datum) : List Line := [.wra a, .plain op, .plain .rdr]

/-- `CALL2 op, a, b` (R46). DESIGN CHOICE (log entry 17): an interface command, which is no operation, has the same
expansion. -/
def call2 (op : Instr) (a b : Datum) : List Line := [.wra a, .wrb b, .plain op, .plain .rdr]

/-- `MVRA` (R46). -/
def mvra : List Line := [.plain .rdr, .wra .lastRead]

/-- `MVRB` (R46). -/
def mvrb : List Line := [.plain .rdr, .wrb .lastRead]

/-- What `$` stands for after a command has been answered: the answer, if the command was `RDR` (R45). -/
def lastReadAfter (c : Command) (t : State) (lastRead : Option Word) : Option Word :=
  match decode c with
  | .ok .rdr => t.rsp.map Response.dout
  | _ => lastRead

/-- The host issues the lines one after another, each when the one before it has been answered (R144), and carries `$`
along. `none` where a line stands for no command. -/
def runLines : List Line → State → Option Word → Option (State × Option Word)
  | [], s, lastRead => some (s, lastRead)
  | line :: lines, s, lastRead =>
    match line.command lastRead with
    | none => none
    | some c =>
      match step (issueNext c s) with
      | .next t => runLines lines t (lastReadAfter c t lastRead)
      | _ => none

end Sys2Proof.Machine
end

