-- ==== Sys2Proof/Safety.lean ====
section
/-! DEFINITION. The terms the statements use: the states a command may leave (spec/40_interface_commands.md R55,
spec/60_exceptions.md R122, R128), written out apart from the machine's own operations; the invariant of the status
register and the response (spec/10_state.md R16, R17; R120); and runs over the host's inputs. -/

namespace Sys2Proof

open Sys2Proof.Machine

/-- The state after an `EXEC` that succeeded with `v` (R55): `R`, `ST` and the response are written and nothing else. -/
def okState (v : Word) (s : State) : State := { s with r := v, st := ⟨0, true⟩, rsp := some ⟨0, 0⟩ }

/-- The state after a command that failed with an error code (R122, R128): `ST` and the response are written and nothing
else. -/
def failState (code : ErrorCode) (s : State) : State := { s with st := ⟨code, false⟩, rsp := some ⟨code, 0⟩ }

/-- The seven values `ST` can hold (R54): 0x00 after reset, 0x08 after a success, 0x01 to 0x05 after an error. -/
def Machine.Status.Legal (st : Status) : Prop := st.err.toNat ≤ 5 ∧ (st.rv = true → st.err = 0)

/-- The invariant of the unit: `ST` is legal, no response ever holds code 6 or 7 (R120), and while the last response is
an error, its data is 0 and `ST` holds that error with `RV = 0` (R50, R122, R128). -/
def Machine.State.Inv (s : State) : Prop :=
  s.st.Legal ∧
  ∀ p ∈ s.rsp, p.err.toNat ≤ 5 ∧ (p.err ≠ 0 → p.dout = 0 ∧ s.st = ⟨p.err, false⟩)

/-- The illegal command words as R44 lists them. -/
def illegalWordRange (n : Nat) : Bool :=
  decide (n = 0x00 ∨ (0x05 ≤ n ∧ n ≤ 0x0F) ∨ (0x14 ≤ n ∧ n ≤ 0x1F) ∨ (0x29 ≤ n ∧ n ≤ 0x2F) ∨ (0x32 ≤ n ∧ n ≤ 0x3F) ∨
    (0x43 ≤ n ∧ n ≤ 0x4F) ∨ (0x50 ≤ n ∧ n ≤ 0xFF))

/-- A raw value is representable: `inrange(z)` (00_scope.md section 5.2), written out. -/
abbrev Representable (z : Int) : Prop := -2 ^ 127 ≤ z ∧ z ≤ 2 ^ 127 - 1

/-- `n` steps of the machine, stopping at the first fault or refusal: the fold of step over the pending inputs (R35;
40_interface_commands.md section 4). It is `Host.Core.run` of the machine (Sys2Proof.Laws.core_run_eq). -/
def runSteps : Nat → State → Host.Outcome State Fault Refusal
  | 0, s => .next s
  | n + 1, s =>
    match step s with
    | .next t => runSteps n t
    | .fault e => .fault e
    | .refused e => .refused e

/-- `t` is the state after `n` steps from the reset state, with `inputs` issued by the host. -/
def ReachedFromReset (inputs : List Input) (n : Nat) (t : State) : Prop :=
  runSteps n { State.reset with inputs := inputs } = .next t

/-- A safe step is one the machine completes with a next state: no fault, no refusal. -/
def Machine.State.Safe (s : State) : Prop := ∃ t, step s = .next t

end Sys2Proof
end

