-- ==== Sys2Proof/Certificates/Slice0/Obligations.lean ====
section
/-! DEFINITION. The statements for the provers. `okState` and `failState` (Sys2Proof/Safety.lean) are whole states, so a statement
that answers one of them is also the instruction's frame: the fields they do not name are unchanged. The unit has no
memory, no program counter and no flags beside `ST` (R24, R25, R30). -/

open Sys2Proof Sys2Proof.Machine

/-! ### Encoding and decoding -/

/-- Every instruction decodes from its encoding: `WRA` and `WRB` with every `DIN`, the others with the `DIN` 0 their encoding
has (30_encoding.md R40, R43, R45). It says so of the command and of its 136 bits as one number. How those bits are numbered
(`CW` in bits 7:0, `DIN` in bits 135:8) is the model's choice (log entry 13). -/
def Obligations.EncodedInstructionsDecodeBack : Prop :=
  ∀ i : Instr, i.wellFormed = true →
    decode (encode i) = .ok i ∧ decodeTableWord 136 (encode i).toBits = some i

/-- A command decodes exactly when its command word is one of the 22, and then its bits are those of the instruction,
the ignored `DIN` apart, which the encoding writes as 0 (30_encoding.md R40, R43, R44, R45; log entry 14). -/
def Obligations.DecodedCommandsAreTheLegalOnes : Prop :=
  ∀ c : Command,
    ((∃ i, decode c = .ok i) ↔ c.wellFormed = true) ∧
    (c.wellFormed = false → decode c = .error (.illegalCommand c.cw)) ∧
    (∀ i, decode c = .ok i →
      (encode i).cw = c.cw ∧ (encode i).din = if c.cw = 0x01 ∨ c.cw = 0x02 then c.din else 0)

/-- One command word of each group, written out bit by bit from `{GRP, IDX}` (R40, R43): a sanity statement. -/
def Obligations.WrittenOutCommandWordsDecode : Prop :=
  decode ⟨0b00000010#8, 0x5#128⟩ = .ok (.wrb 0x5) ∧
  decode ⟨0b00010011#8, 0#128⟩ = .ok .fromuint ∧
  decode ⟨0b00101000#8, 0#128⟩ = .ok .shift ∧
  decode ⟨0b00110001#8, 0#128⟩ = .ok .sqrt ∧
  decode ⟨0b01000010#8, 0#128⟩ = .ok .exp

/-- R44 and R128: a command word is illegal exactly in the listed ranges, 234 of the 256 values; an illegal one, with any
`DIN`, changes nothing but `ST` (`RV = 0`, `ERR = 5`) and answers `rsp.err = 5`, `rsp.dout = 0`. -/
def Obligations.IllegalCommandWordsTakeTheirError : Prop :=
  ((List.range 256).filter illegalWordRange).length = 234 ∧
  ∀ (c : Command) (s : State) (rest : List Input), s.inputs = .command c :: rest →
    (illegalWordRange c.cw.toNat = true →
      step s = .next { s with st := ⟨5, false⟩, rsp := some ⟨5, 0⟩, inputs := rest }) ∧
    (illegalWordRange c.cw.toNat = false → ∃ i, decode c = .ok i)

/-- R57: the ten one-operand operations give the same outcome for every content of `B`, and every command but `WRA` and
`WRB` ignores `DIN`. -/
def Obligations.UnreadInputsAreIgnored : Prop :=
  (∀ i ∈ [Instr.fromint, .toint, .touint, .fromuint, .abs, .inv, .sqrt, .log2, .exp2, .exp],
    ∀ (s : State) (b : Word), ∃ t, exec i s = .next t ∧ exec i { s with b := b } = .next { t with b := b }) ∧
  (∀ (cw : CommandWord) (din din' : Word), cw ≠ 0x01 → cw ≠ 0x02 → decode ⟨cw, din⟩ = decode ⟨cw, din'⟩)

/-! ### Steps and runs -/

/-- A step with a legal command pending takes it off the list and runs exactly the decoded instruction (R35, R50). The list
of pending inputs is the model's own field (log entry 3). -/
def Obligations.StepRunsTheDecodedCommand : Prop :=
  ∀ (s : State) (c : Command) (rest : List Input) (i : Instr),
    s.inputs = .command c :: rest → decode c = .ok i → step s = exec i { s with inputs := rest }

/-- With nothing pending nothing happens (R126, R130; that a step then answers the same state is the model's choice, log
entry 3). A reset input clears `ST`, whatever command it found in progress (R140; that a reset is an input taken by a step is
the model's reading, log entry 6). That no response is left afterwards is the model's choice: R140 speaks only of the
abandoned command's response (log entry 4). What a reset leaves in `A`, `B`, `R` is unspecified (R27) and not stated. -/
def Obligations.IdleAndResetSteps : Prop :=
  (∀ s : State, s.inputs = [] → step s = .next s) ∧
  (∀ (s : State) (p q : Option Command) (rest : List Input),
    ∃ t, step { s with inputs := .reset p :: rest } = .next t ∧ step { s with inputs := .reset q :: rest } = .next t ∧
      t.st = ⟨0, false⟩ ∧ t.rsp = none ∧ t.inputs = rest)

/-- Every step, and so every run, completes (R50, R55), and a step takes one pending input where there is one ("one step per
command", R145). Once none is left the remaining steps are idle and take nothing: the list and the idle step are the
model's choice, and their number stands for nothing in the unit (log entry 3). -/
def Obligations.EveryRunCompletes : Prop :=
  ∀ (n : Nat) (s : State), ∃ t : State, runSteps n s = .next t ∧ t.inputs = s.inputs.drop n

/-- R35: the inputs are performed one at a time in issue order; what is issued later has no effect on the steps before
it. The list of inputs is the model's own field (log entry 3). -/
def Obligations.LaterInputsDoNotReachBack : Prop :=
  ∀ (earlier later : List Input) (s t : State),
    runSteps earlier.length { s with inputs := earlier } = .next t →
      t.inputs = [] ∧ runSteps earlier.length { s with inputs := earlier ++ later } = .next { t with inputs := later }

/-! ### Whole-machine rules -/

/-- Every step keeps the invariant: `ST` stays legal, codes 6 and 7 are never produced, and an error answer has data 0 and
finds `RV = 0` with its own code in `ST` (R16, R17, R120, R122, R128). -/
def Obligations.EveryStepKeepsTheInvariant : Prop :=
  ∀ s t : State, s.Inv → step s = .next t → t.Inv

/-- The reset state has the invariant and `ST = 0x00` (R27, R140). That it holds no response yet is the model's choice: the
spec does not say what the response shows before the first command (log entry 4). -/
def Obligations.ResetHasTheInvariant : Prop :=
  State.reset.Inv ∧ State.reset.st.toWord = 0x00 ∧ State.reset.rsp = none

/-- R17: once `ST` has been cleared by a reset, and commands alone follow, `ST.RV = 1` exactly when `ST.ERR = 0` and at
least one `EXEC` has completed; an `EXEC` overwrites `ST` with its own outcome whatever it held; and the four interface
commands do not change `ST`. -/
def Obligations.ResultValidHistory : Prop :=
  (∀ (s : State) (commands : List Command),
    s.st = ⟨0, false⟩ → s.inputs = commands.map Input.command →
      ∃ t, runSteps commands.length s = .next t ∧
        (t.st.rv = true ↔ t.st.err = 0 ∧ ∃ c ∈ commands, ∃ i, decode c = .ok i ∧ i.isExec = true)) ∧
  (∀ (i : Instr) (s : State) (st : Status), i.isExec = true →
    ∃ t u, exec i s = .next t ∧ exec i { s with st := st } = .next u ∧ u.st = t.st) ∧
  (∀ (i : Instr) (s : State), i.isExec = false → ∃ t, exec i s = .next t ∧ t.st = s.st)

/-- R18 and R122 (with R4, R55): an `EXEC` command is a function of the contents of `A` and `B` alone. On `Ok(v)` it writes
`v` to `R`, sets `RV`, clears `ERR`; on `Fail(k)` it writes the code of `k` with `RV = 0`. Nothing else changes: `A` and
`B` never, `R` not on a failure. -/
def Obligations.ExecCommitsAFunctionOfItsOperands : Prop :=
  ∀ i : Instr, i.isExec = true → ∃ f : Word → Word → Result, ∀ s : State,
    exec i s =
      match f s.a s.b with
      | .ok v => .next { s with r := v, st := ⟨0, true⟩, rsp := some ⟨0, 0⟩ }
      | .fail .overflow => .next { s with st := ⟨1, false⟩, rsp := some ⟨1, 0⟩ }
      | .fail .divisionByZero => .next { s with st := ⟨2, false⟩, rsp := some ⟨2, 0⟩ }
      | .fail .domainError => .next { s with st := ⟨3, false⟩, rsp := some ⟨3, 0⟩ }
      | .fail .negativeValue => .next { s with st := ⟨4, false⟩, rsp := some ⟨4, 0⟩ }

/-- Each register has its writers and no other (10_state.md R13 to R16): whatever input a step takes, `A` changes only by
`WRA`, `B` only by `WRB`, `R` only by an `EXEC` that succeeds, `ST` only by an `EXEC` or an illegal command; a reset may
change any of them (R27). The last clause is about `resets`, the model's own field (log entry 2). -/
def Obligations.RegistersHaveTheirWriters : Prop :=
  ∀ (s t : State) (c : Command) (rest : List Input), s.inputs = .command c :: rest → step s = .next t →
    (t.a ≠ s.a → decode c = .ok (.wra c.din) ∧ t.a = c.din) ∧
    (t.b ≠ s.b → decode c = .ok (.wrb c.din) ∧ t.b = c.din) ∧
    (t.r ≠ s.r → (∃ i, decode c = .ok i ∧ i.isExec = true) ∧ t.st = ⟨0, true⟩) ∧
    (t.st ≠ s.st → (∃ i, decode c = .ok i ∧ i.isExec = true) ∨ illegalWordRange c.cw.toNat = true) ∧
    t.resets = s.resets

/-- R34: every legal command is idempotent: performed again at once, it answers the same and changes nothing more. -/
def Obligations.RepeatedCommandsChangeNothingMore : Prop :=
  ∀ (i : Instr) (s t : State), exec i s = .next t → exec i t = .next t

/-- R121: which command can answer which error code: those of its rows and no other. -/
def Obligations.EachCommandRaisesOnlyItsKinds : Prop :=
  ∀ (i : Instr) (s : State), ∃ t, exec i s = .next t ∧ ∃ p, t.rsp = some p ∧
    p.err ∈ (match i with
      | .wra _ | .wrb _ | .rdr | .rdst | .toint | .avg => [0]
      | .touint => [0, 4]
      | .fromint | .fromuint | .add | .sub | .abs | .mul | .shift | .pow | .exp2 | .exp => [0, 1]
      | .inv | .div => [0, 2, 1]
      | .gavg => [0, 3, 1]
      | .sqrt | .log2 => [0, 3] : List ErrorCode)

/-! ### Interface commands -/

/-- R51 and R52: `WRA` and `WRB` write the whole of `DIN` to their register, answer 0, and change nothing else, `ST`
included; every word is accepted. -/
def Obligations.OperandWrites : Prop :=
  ∀ (din : Word) (s : State),
    decode ⟨0x01, din⟩ = .ok (.wra din) ∧ exec (.wra din) s = .next { s with a := din, rsp := some ⟨0, 0⟩ } ∧
    decode ⟨0x02, din⟩ = .ok (.wrb din) ∧ exec (.wrb din) s = .next { s with b := din, rsp := some ⟨0, 0⟩ }

/-- R53: `RDR` answers `R` whatever `ST.RV` is, never fails, and changes no register. -/
def Obligations.ResultRead : Prop :=
  ∀ (din : Word) (s : State), decode ⟨0x03, din⟩ = .ok .rdr ∧ exec .rdr s = .next { s with rsp := some ⟨0, s.r⟩ }

/-- R54: `RDST` answers `ST` zero-extended and changes no register; from reset, with any inputs, the value it answers is
one of seven. -/
def Obligations.StatusRead : Prop :=
  (∀ (din : Word) (s : State), decode ⟨0x04, din⟩ = .ok .rdst ∧
    ∃ dout : Word, exec .rdst s = .next { s with rsp := some ⟨0, dout⟩ } ∧
      dout.extractLsb' 0 3 = s.st.err ∧ dout.getLsbD 3 = s.st.rv ∧ dout.extractLsb' 4 124 = 0) ∧
  (∀ (inputs : List Input) (n : Nat) (s : State), ReachedFromReset inputs n s →
    ∃ dout : Word, exec .rdst s = .next { s with rsp := some ⟨0, dout⟩ } ∧
      dout ∈ ([0x00, 0x08, 0x01, 0x02, 0x03, 0x04, 0x05] : List Word))

/-! ### Conversion -/

/-- R60: `FROMINT` gives `n * 2^64`, that is `{a[63:0], 64 zeros}`, for `n` in `[-2^63, 2^63 - 1]`, in bits when
`a[127:63]` is all zeros or all ones; otherwise Overflow. -/
def Obligations.FromintResult : Prop :=
  ∀ s : State,
    decode ⟨0x10, 0⟩ = .ok .fromint ∧
    ((-2 ^ 63 ≤ s.a.toInt ∧ s.a.toInt ≤ 2 ^ 63 - 1) ↔
      (s.a.extractLsb' 63 65 = 0 ∨ s.a.extractLsb' 63 65 = BitVec.allOnes 65)) ∧
    (-2 ^ 63 ≤ s.a.toInt ∧ s.a.toInt ≤ 2 ^ 63 - 1 →
      exec .fromint s = .next (okState (s.a.extractLsb' 0 64 ++ 0#64) s) ∧
      (s.a.extractLsb' 0 64 ++ 0#64).toInt = s.a.toInt * 2 ^ 64) ∧
    (s.a.toInt < -2 ^ 63 ∨ 2 ^ 63 - 1 < s.a.toInt → exec .fromint s = .next (failState 1 s))

/-- R61: `TOINT` never fails and gives the floor of the value, that is `sext_128(a[127:64])`; and it takes back what
`FROMINT` made. -/
def Obligations.TointResult : Prop :=
  (∀ s : State,
    decode ⟨0x11, 0⟩ = .ok .toint ∧
    exec .toint s = .next (okState ((s.a.extractLsb' 64 64).signExtend 128) s) ∧
    ((s.a.extractLsb' 64 64).signExtend 128).toInt = ⌊(s.a.toInt : ℚ) / 2 ^ 64⌋) ∧
  (∀ s : State, -2 ^ 63 ≤ s.a.toInt ∧ s.a.toInt ≤ 2 ^ 63 - 1 →
    ∃ t u, exec .fromint s = .next t ∧ exec .toint { t with a := t.r } = .next u ∧ u.r = s.a ∧ u.st = ⟨0, true⟩)

/-- R62: `TOUINT` fails with NegativeValue exactly when `a[127] = 1`; otherwise it gives `zext_128(a[127:64])`, the floor
of the value. -/
def Obligations.TouintResult : Prop :=
  ∀ s : State,
    decode ⟨0x12, 0⟩ = .ok .touint ∧
    (s.a.toInt < 0 ↔ s.a.getLsbD 127 = true) ∧
    (s.a.toInt < 0 → exec .touint s = .next (failState 4 s)) ∧
    (0 ≤ s.a.toInt →
      exec .touint s = .next (okState ((s.a.extractLsb' 64 64).setWidth 128) s) ∧
      ((s.a.extractLsb' 64 64).setWidth 128).toInt = ⌊(s.a.toInt : ℚ) / 2 ^ 64⌋)

/-- R63: `FROMUINT` gives `n * 2^64` for `n = U(A) < 2^63`, in bits when `a[127:63]` is all zeros; otherwise Overflow. -/
def Obligations.FromuintResult : Prop :=
  ∀ s : State,
    decode ⟨0x13, 0⟩ = .ok .fromuint ∧
    (s.a.toNat < 2 ^ 63 ↔ s.a.extractLsb' 63 65 = 0) ∧
    (s.a.toNat < 2 ^ 63 → ∃ v : Word, exec .fromuint s = .next (okState v s) ∧ v.toInt = s.a.toNat * 2 ^ 64) ∧
    (2 ^ 63 ≤ s.a.toNat → exec .fromuint s = .next (failState 1 s))

/-! ### Core arithmetic -/

/-- R70: `ADD` gives the exact sum where it is representable, else Overflow, in bits when `a[127] = b[127]` and the wrapped
sum's bit 127 differs; and `SUB` of `y` from the sum gives `x` back. -/
def Obligations.AddResult : Prop :=
  ∀ s : State,
    decode ⟨0x20, 0⟩ = .ok .add ∧
    (Representable (s.a.toInt + s.b.toInt) →
      ∃ v : Word, exec .add s = .next (okState v s) ∧ v.toInt = s.a.toInt + s.b.toInt ∧
        ∃ u, exec .sub { okState v s with a := v } = .next u ∧ u.r = s.a ∧ u.st = ⟨0, true⟩) ∧
    (¬Representable (s.a.toInt + s.b.toInt) → exec .add s = .next (failState 1 s)) ∧
    (¬Representable (s.a.toInt + s.b.toInt) ↔
      s.a.getLsbD 127 = s.b.getLsbD 127 ∧ (s.a + s.b).getLsbD 127 ≠ s.a.getLsbD 127)

/-- R71: `SUB` gives the exact difference where it is representable, else Overflow, in bits when `a[127] != b[127]` and the
wrapped difference's bit 127 differs from `a[127]`. -/
def Obligations.SubResult : Prop :=
  ∀ s : State,
    decode ⟨0x21, 0⟩ = .ok .sub ∧
    (Representable (s.a.toInt - s.b.toInt) →
      ∃ v : Word, exec .sub s = .next (okState v s) ∧ v.toInt = s.a.toInt - s.b.toInt) ∧
    (¬Representable (s.a.toInt - s.b.toInt) → exec .sub s = .next (failState 1 s)) ∧
    (¬Representable (s.a.toInt - s.b.toInt) ↔
      s.a.getLsbD 127 ≠ s.b.getLsbD 127 ∧ (s.a - s.b).getLsbD 127 ≠ s.a.getLsbD 127)

/-- R72: `ABS` gives the magnitude, and Overflow for `MIN_RAW` alone. -/
def Obligations.AbsResult : Prop :=
  ∀ s : State,
    decode ⟨0x22, 0⟩ = .ok .abs ∧
    (s.a ≠ 0x80000000000000000000000000000000 →
      ∃ v : Word, exec .abs s = .next (okState v s) ∧ v.toInt = |s.a.toInt|) ∧
    (s.a = 0x80000000000000000000000000000000 → exec .abs s = .next (failState 1 s))

/-- R73: `INV` of 0 is DivisionByZero; of the raw values 1, 2 and -1 Overflow; of every other operand it gives the floor of
`2^128 / x`. And it is `DIV` of `ROM.ONE` by the operand. -/
def Obligations.InvResult : Prop :=
  ∀ s : State,
    decode ⟨0x23, 0⟩ = .ok .inv ∧
    (s.a.toInt = 0 → exec .inv s = .next (failState 2 s)) ∧
    (s.a.toInt = 1 ∨ s.a.toInt = 2 ∨ s.a.toInt = -1 → exec .inv s = .next (failState 1 s)) ∧
    (s.a.toInt ≠ 0 ∧ s.a.toInt ≠ 1 ∧ s.a.toInt ≠ 2 ∧ s.a.toInt ≠ -1 →
      ∃ v : Word, exec .inv s = .next (okState v s) ∧ v.toInt = ⌊(2 ^ 128 : ℚ) / s.a.toInt⌋) ∧
    (∃ t u, exec .inv s = .next t ∧ exec .div { s with a := 0x00000000000000010000000000000000, b := s.a } = .next u ∧
      t.r = u.r ∧ t.st = u.st ∧ t.rsp = u.rsp)

/-- R74: `AVG` never fails, and gives the floor of `(x + y) / 2`, between the two operands. -/
def Obligations.AvgResult : Prop :=
  ∀ s : State,
    decode ⟨0x24, 0⟩ = .ok .avg ∧
    ∃ v : Word, exec .avg s = .next (okState v s) ∧ v.toInt = ⌊((s.a.toInt : ℚ) + s.b.toInt) / 2⌋ ∧
      min s.a.toInt s.b.toInt ≤ v.toInt ∧ v.toInt ≤ max s.a.toInt s.b.toInt

/-- R75: `GAVG` of a negative product is DomainError; of `MIN_RAW` and `MIN_RAW` Overflow; otherwise it gives the largest
non-negative `r` with `r * r <= x * y`. -/
def Obligations.GavgResult : Prop :=
  ∀ s : State,
    decode ⟨0x25, 0⟩ = .ok .gavg ∧
    (s.a.toInt * s.b.toInt < 0 → exec .gavg s = .next (failState 3 s)) ∧
    (s.a.toInt = -2 ^ 127 ∧ s.b.toInt = -2 ^ 127 → exec .gavg s = .next (failState 1 s)) ∧
    (0 ≤ s.a.toInt * s.b.toInt ∧ ¬(s.a.toInt = -2 ^ 127 ∧ s.b.toInt = -2 ^ 127) →
      ∃ v : Word, exec .gavg s = .next (okState v s) ∧ 0 ≤ v.toInt ∧
        v.toInt * v.toInt ≤ s.a.toInt * s.b.toInt ∧ s.a.toInt * s.b.toInt < (v.toInt + 1) * (v.toInt + 1))

/-- R76: `MUL` gives the floor of `x * y / 2^64` where it is representable, else Overflow. -/
def Obligations.MulResult : Prop :=
  ∀ s : State,
    decode ⟨0x26, 0⟩ = .ok .mul ∧
    (Representable ⌊((s.a.toInt : ℚ) * s.b.toInt) / 2 ^ 64⌋ →
      ∃ v : Word, exec .mul s = .next (okState v s) ∧ v.toInt = ⌊((s.a.toInt : ℚ) * s.b.toInt) / 2 ^ 64⌋) ∧
    (¬Representable ⌊((s.a.toInt : ℚ) * s.b.toInt) / 2 ^ 64⌋ → exec .mul s = .next (failState 1 s))

/-- R77: `DIV` by zero is DivisionByZero, whatever the dividend; otherwise it gives the floor of `x * 2^64 / y` where that
is representable, else Overflow. -/
def Obligations.DivResult : Prop :=
  ∀ s : State,
    decode ⟨0x27, 0⟩ = .ok .div ∧
    (s.b.toInt = 0 → exec .div s = .next (failState 2 s)) ∧
    (s.b.toInt ≠ 0 → Representable ⌊((s.a.toInt : ℚ) * 2 ^ 64) / s.b.toInt⌋ →
      ∃ v : Word, exec .div s = .next (okState v s) ∧ v.toInt = ⌊((s.a.toInt : ℚ) * 2 ^ 64) / s.b.toInt⌋) ∧
    (s.b.toInt ≠ 0 → ¬Representable ⌊((s.a.toInt : ℚ) * 2 ^ 64) / s.b.toInt⌋ →
      exec .div s = .next (failState 1 s))

/-- The round trip of R77 (95_test_vectors.md S4): for integers `a` and `b != 0` whose product `MUL` can represent, `DIV` of
`MUL` of `fx(a)`, `fx(b)` by `fx(b)` is `fx(a)` exactly, and `TOINT` gives `a`. -/
def Obligations.MulDivRoundTrip : Prop :=
  ∀ (s : State) (m n : Int), s.a.toInt = m * 2 ^ 64 → s.b.toInt = n * 2 ^ 64 → n ≠ 0 →
    -2 ^ 63 ≤ m * n → m * n ≤ 2 ^ 63 - 1 →
      ∃ t u w, exec .mul s = .next t ∧ t.st = ⟨0, true⟩ ∧ t.r.toInt = m * n * 2 ^ 64 ∧
        exec .div { t with a := t.r } = .next u ∧ u.st = ⟨0, true⟩ ∧ u.r = s.a ∧
        exec .toint { u with a := u.r } = .next w ∧ w.st = ⟨0, true⟩ ∧ w.r.toInt = m

/-- R78: `SHIFT` by `s >= 0` gives `x * 2^s` where that is representable, else Overflow; by `s < 0` it gives the floor of
`x / 2^(-s)` and never fails. The count is the whole signed `B`, up to `2^127 - 1` and down to `-2^127`. -/
def Obligations.ShiftResult : Prop :=
  ∀ s : State,
    decode ⟨0x28, 0⟩ = .ok .shift ∧
    (0 ≤ s.b.toInt → Representable (s.a.toInt * 2 ^ s.b.toInt.toNat) →
      ∃ v : Word, exec .shift s = .next (okState v s) ∧ v.toInt = s.a.toInt * 2 ^ s.b.toInt.toNat) ∧
    (0 ≤ s.b.toInt → ¬Representable (s.a.toInt * 2 ^ s.b.toInt.toNat) → exec .shift s = .next (failState 1 s)) ∧
    (s.b.toInt < 0 →
      ∃ v : Word, exec .shift s = .next (okState v s) ∧ v.toInt = ⌊(s.a.toInt : ℚ) / 2 ^ (-s.b.toInt).toNat⌋)

/-! ### Power and root -/

/-- R90: `POW` is the `while` loop of the rule, with no bound on its iterations: the function `w` of the loop's equations
(which determine it) gives its outcome from `ROM.ONE`, `A` and `U(B)`, and a `Fail` of any product is Overflow. -/
def Obligations.PowIsItsLoop : Prop :=
  ∃ w : Word → Word → Nat → Result,
    (∀ result base, w result base 0 = .ok result) ∧
    (∀ result base e, e ≠ 0 →
      w result base e =
        (if e % 2 = 1 then fMul result base else .ok result).andThen fun result' =>
          if e / 2 = 0 then .ok result' else (fMul base base).andThen fun base' => w result' base' (e / 2)) ∧
    decode ⟨0x30, 0⟩ = .ok .pow ∧
    ∀ s : State,
      exec .pow s =
        match w 0x00000000000000010000000000000000 s.a s.b.toNat with
        | .ok v => .next (okState v s)
        | .fail _ => .next (failState 1 s)

/-- R90, corner cases: exponent 0 gives `ONE` and exponent 1 gives the operand, for every operand; 0, `ONE` and `-ONE` to
any power; and the unit completes for every exponent when `|x| <= ONE`. -/
def Obligations.PowOfSmallBasesCompletes : Prop :=
  ∀ s : State,
    (s.b = 0 → exec .pow s = .next (okState 0x00000000000000010000000000000000 s)) ∧
    (s.b = 1 → exec .pow s = .next (okState s.a s)) ∧
    (s.a = 0 → s.b ≠ 0 → exec .pow s = .next (okState 0 s)) ∧
    (s.a = 0x00000000000000010000000000000000 → exec .pow s = .next (okState 0x00000000000000010000000000000000 s)) ∧
    (s.a = 0xFFFFFFFFFFFFFFFF0000000000000000 →
      exec .pow s = .next
        (okState (if s.b.toNat % 2 = 1 then 0xFFFFFFFFFFFFFFFF0000000000000000 else 0x00000000000000010000000000000000) s)) ∧
    (|s.a.toInt| ≤ 2 ^ 64 → ∃ v : Word, exec .pow s = .next (okState v s) ∧ |v.toInt| ≤ 2 ^ 64)

/-- `POW` is exact on integers: for `A = fx(m)` and any exponent `n`, it gives `fx(m^n)` where that is representable and
Overflow where it is not. A consequence of R90: no intermediate square overflows that the result does not need. -/
def Obligations.PowIsExactOnIntegers : Prop :=
  ∀ (s : State) (m : Int), s.a.toInt = m * 2 ^ 64 →
    (-2 ^ 63 ≤ m ^ s.b.toNat ∧ m ^ s.b.toNat ≤ 2 ^ 63 - 1 →
      ∃ v : Word, exec .pow s = .next (okState v s) ∧ v.toInt = m ^ s.b.toNat * 2 ^ 64) ∧
    (m ^ s.b.toNat < -2 ^ 63 ∨ 2 ^ 63 - 1 < m ^ s.b.toNat → exec .pow s = .next (failState 1 s))

/-- R91: `SQRT` of a negative value is DomainError; otherwise it gives the largest `r >= 0` with `r^2 <= x * 2^64`, below
`2^96`, and `MUL` of the root with itself does not exceed the operand. -/
def Obligations.SqrtResult : Prop :=
  ∀ s : State,
    decode ⟨0x31, 0⟩ = .ok .sqrt ∧
    (s.a.toInt < 0 → exec .sqrt s = .next (failState 3 s)) ∧
    (0 ≤ s.a.toInt →
      ∃ v : Word, exec .sqrt s = .next (okState v s) ∧ 0 ≤ v.toInt ∧ v.toInt < 2 ^ 96 ∧
        v.toInt ^ 2 ≤ s.a.toInt * 2 ^ 64 ∧ s.a.toInt * 2 ^ 64 < (v.toInt + 1) ^ 2 ∧
        ∃ u, exec .mul { s with a := v, b := v } = .next u ∧ u.st = ⟨0, true⟩ ∧ u.r.toInt ≤ s.a.toInt)

/-- R92: the reference datapath is the floor square root for every `z < 2^(2k)`; 96 iterations suffice for `SQRT` and 128
for `GAVG`. Its loop invariant is `r^2 <= z < (r + 2^(i+1))^2` before iteration `i`: the first iteration finds it, each
iteration keeps it, and from any partial root that satisfies it the remaining iterations reach the floor root. -/
def Obligations.IsqrtReferenceIsTheFloorRoot : Prop :=
  (∀ z k : Nat, z < 2 ^ (2 * k) →
    (0 * 0 ≤ z ∧ z < (0 + 2 ^ k) * (0 + 2 ^ k)) ∧ isqrtRef z k = isqrtLoop k z 0 ∧
    isqrtRef z k * isqrtRef z k ≤ z ∧ z < (isqrtRef z k + 1) * (isqrtRef z k + 1)) ∧
  (∀ z i r : Nat, r * r ≤ z → z < (r + 2 ^ (i + 1)) * (r + 2 ^ (i + 1)) →
    ∃ r' : Nat, r' = (if (r + 2 ^ i) * (r + 2 ^ i) ≤ z then r + 2 ^ i else r) ∧
      isqrtLoop (i + 1) z r = isqrtLoop i z r' ∧ r' * r' ≤ z ∧ z < (r' + 2 ^ i) * (r' + 2 ^ i)) ∧
  (∀ z n r : Nat, r * r ≤ z → z < (r + 2 ^ n) * (r + 2 ^ n) → isqrtLoop n z r = Nat.sqrt z) ∧
  (∀ a : Word, 0 ≤ a.toInt → isqrtRef (a.toInt * 2 ^ 64).toNat 96 = isqrt (a.toInt * 2 ^ 64).toNat) ∧
  (∀ a b : Word, 0 ≤ a.toInt * b.toInt → isqrt (a.toInt * b.toInt).toNat = Nat.sqrt (a.toInt * b.toInt).toNat)

/-! ### Transcendental operations -/

/-- R100: `LOG2` of a value `<= 0` is DomainError. Otherwise, with `n = msb(x)`, it gives `(n - 64) * 2^64` plus the 64
fraction bits `b i` of weight `2^(64 - i)` that the datapath of the rule emits, whose ratio `m i` stays in Q1.127; so the
result lies in `[(n - 64) * 2^64, (n - 63) * 2^64)`, and is the integer `n - 64` for a power of two. -/
def Obligations.Log2Datapath : Prop :=
  ∀ s : State,
    decode ⟨0x40, 0⟩ = .ok .log2 ∧
    (s.a.toInt ≤ 0 → exec .log2 s = .next (failState 3 s)) ∧
    (0 < s.a.toInt →
      ∃ (v : Word) (n : Nat) (m b : Nat → Nat),
        exec .log2 s = .next (okState v s) ∧
        2 ^ n ≤ s.a.toInt ∧ s.a.toInt < 2 ^ (n + 1) ∧
        (m 0 : Int) = s.a.toInt * 2 ^ (127 - n) ∧
        (∀ i, i < 64 →
          b (i + 1) = m i * m i / 2 ^ 255 ∧ b (i + 1) ≤ 1 ∧ m (i + 1) = m i * m i / 2 ^ (127 + b (i + 1))) ∧
        (∀ i, i ≤ 64 → 2 ^ 127 ≤ m i ∧ m i < 2 ^ 128) ∧
        v.toInt = ((n : Int) - 64) * 2 ^ 64 + ∑ i ∈ Finset.range 64, (b (i + 1) : Int) * 2 ^ (63 - i) ∧
        ((n : Int) - 64) * 2 ^ 64 ≤ v.toInt ∧ v.toInt < ((n : Int) - 63) * 2 ^ 64 ∧
        (s.a.toInt = 2 ^ n → v.toInt = ((n : Int) - 64) * 2 ^ 64))

/-- An error bound for `LOG2` against the real base-2 logarithm: never above it, and below it by less than one ULP and `2^-60` of an
ULP more. The spec measures (R103) and states no such rule. -/
def Obligations.Log2ErrorAgainstTheRealLogarithm : Prop :=
  ∀ s : State, 0 < s.a.toInt →
    ∃ v : Word, exec .log2 s = .next (okState v s) ∧
      (v.toInt : ℝ) / 2 ^ 64 ≤ Real.logb 2 ((s.a.toInt : ℝ) / 2 ^ 64) ∧
      Real.logb 2 ((s.a.toInt : ℝ) / 2 ^ 64) < ((v.toInt : ℝ) + 1 + 1 / 2 ^ 60) / 2 ^ 64

/-- R101: `EXP2` is Overflow exactly outside `[-63, 63)`. Inside, with `k` the floor and `f` the fraction of the operand,
the product `m` of the table entries that the bits of `f` select stays in Q1.127, `y = floor(m 64 / 2^63)` is in
`[2^64, 2^65)`, and the result is `y * 2^k` for `k >= 0` and the floor of `y / 2^(-k)` for `k < 0`, at least 2; for
`f = 0` it is `2^(64 + k)`. -/
def Obligations.Exp2Datapath : Prop :=
  ∀ s : State,
    decode ⟨0x41, 0⟩ = .ok .exp2 ∧
    (s.a.toInt < -63 * 2 ^ 64 ∨ 63 * 2 ^ 64 ≤ s.a.toInt → exec .exp2 s = .next (failState 1 s)) ∧
    (-63 * 2 ^ 64 ≤ s.a.toInt ∧ s.a.toInt < 63 * 2 ^ 64 →
      ∃ (v : Word) (k : Int) (f y : Nat) (m : Nat → Nat),
        exec .exp2 s = .next (okState v s) ∧
        s.a.toInt = k * 2 ^ 64 + f ∧ f < 2 ^ 64 ∧ -63 ≤ k ∧ k ≤ 62 ∧
        m 0 = 2 ^ 127 ∧
        (∀ i, 1 ≤ i ∧ i ≤ 64 →
          m i = if f.testBit (64 - i) = true then m (i - 1) * (Rom.t i).toNat / 2 ^ 127 else m (i - 1)) ∧
        (∀ i, i ≤ 64 → 2 ^ 127 ≤ m i ∧ m i < 2 ^ 128) ∧
        y = m 64 / 2 ^ 63 ∧ 2 ^ 64 ≤ y ∧ y < 2 ^ 65 ∧
        (0 ≤ k → v.toInt = y * 2 ^ k.toNat) ∧
        (k < 0 → v.toInt = ⌊(y : ℚ) / 2 ^ (-k).toNat⌋) ∧
        2 ≤ v.toInt ∧
        (f = 0 → v.toInt = 2 ^ (64 + k).toNat))

/-- R102: `EXP` is `MUL` by `ROM.LOG2E` followed by `EXP2`: it answers what `EXP2` answers on the product, and Overflow if
the product fails; and it succeeds exactly for `A` in the rule's interval, as signed values. -/
def Obligations.ExpResult : Prop :=
  ∀ s : State,
    decode ⟨0x42, 0⟩ = .ok .exp ∧
    (∃ t u, exec .exp s = .next t ∧ exec .mul { s with b := 0x000000000000000171547652B82FE177 } = .next u ∧
      (u.st = ⟨0, true⟩ → ∃ w, exec .exp2 { u with a := u.r } = .next w ∧
        t.st = w.st ∧ t.rsp = w.rsp ∧ (t.st = ⟨0, true⟩ → t.r = w.r)) ∧
      (u.st ≠ ⟨0, true⟩ → t = failState 1 s)) ∧
    ((0xFFFFFFFFFFFFFFD454EC1A035DF10EAB#128).toInt ≤ s.a.toInt ∧ s.a.toInt ≤ (0x000000000000002BAB13E5FCA20EF155#128).toInt →
      ∃ v : Word, exec .exp s = .next (okState v s) ∧ 2 ≤ v.toInt) ∧
    (s.a.toInt < (0xFFFFFFFFFFFFFFD454EC1A035DF10EAB#128).toInt ∨ (0x000000000000002BAB13E5FCA20EF155#128).toInt < s.a.toInt →
      exec .exp s = .next (failState 1 s))

/-- An error bound for `EXP2` against the real exponential: never above it, and below it by less than one ULP and `2^-50` of an ULP
more, times `2^k` where the integer part `k` of the operand is positive. U10 of 93_implementation_defined.md asks for a bound
of one ULP where `k <= 0`; R103 measures and states no such rule. -/
def Obligations.Exp2ErrorAgainstTheRealExponential : Prop :=
  ∀ s : State, -63 * 2 ^ 64 ≤ s.a.toInt ∧ s.a.toInt < 63 * 2 ^ 64 →
    ∃ v : Word, exec .exp2 s = .next (okState v s) ∧
      (v.toInt : ℝ) / 2 ^ 64 ≤ (2 : ℝ) ^ ((s.a.toInt : ℝ) / 2 ^ 64) ∧
      (2 : ℝ) ^ ((s.a.toInt : ℝ) / 2 ^ 64) <
        ((v.toInt : ℝ) + max 1 ((2 : ℝ) ^ ⌊(s.a.toInt : ℝ) / 2 ^ 64⌋) * (1 + 1 / 2 ^ 50)) / 2 ^ 64

/-- R19, R20, R21: the ROM holds 1.0, `floor(log2(e) * 2^64)`, and at entry `i = 1 .. 64` the floor of
`2^(2^-i) * 2^127`, with bit 127 set: the real constants, not the digits the spec prints. -/
def Obligations.RomHoldsTheRealConstants : Prop :=
  Rom.one.toInt = 2 ^ 64 ∧
  Rom.log2e.toInt = ⌊Real.logb 2 (Real.exp 1) * 2 ^ 64⌋ ∧ Rom.log2e.toInt = 26613026195688644983 ∧
  ∀ i : Nat, 1 ≤ i → i ≤ 64 →
    (Rom.t i).toNat = ⌊(2 : ℝ) ^ ((1 : ℝ) / 2 ^ i) * 2 ^ 127⌋₊ ∧ (Rom.t i).getLsbD 127 = true

/-! ### Host sequences -/

/-- The host's `CALL1` and `CALL2` make a function call of an operation: whatever the unit held, the operands are the
given ones, the operation is performed on them once, and what the call reads back is `R`; the status is that of the
operation. R46 defines `CALL1` only for an operation that does not read `B`; that the same expansion, with `B` left as it
was, is given to one that reads `B` is the model's choice (log entry 17). -/
def Obligations.CallSequencesApplyTheOperation : Prop :=
  ∀ (op : Instr) (s : State) (last : Option Word) (a b : Word), op.isExec = true →
    (∃ t, exec op { s with a := a } = .next t ∧
      runLines (call1 op (.hex a)) s last = some ({ t with rsp := some ⟨0, t.r⟩ }, some t.r)) ∧
    (∃ t, exec op { s with a := a, b := b } = .next t ∧ t.a = a ∧ t.b = b ∧
      runLines (call2 op (.hex a) (.hex b)) s last = some ({ t with rsp := some ⟨0, t.r⟩ }, some t.r))

/-- R46: `MVRA` and `MVRB` copy `R` to an operand register through the host and change no other register. -/
def Obligations.MoveSequencesCopyTheResult : Prop :=
  ∀ (s : State) (last : Option Word),
    runLines mvra s last = some ({ s with a := s.r, rsp := some ⟨0, 0⟩ }, some s.r) ∧
    runLines mvrb s last = some ({ s with b := s.r, rsp := some ⟨0, 0⟩ }, some s.r)
end

