-- ==== Sys2Proof/Laws/State.lean ====
section
/-! SUPPORT. One lemma per field per update of the state, each true by rfl, so that no proof unfolds a record update. -/

namespace Sys2Proof.Laws

open Sys2Proof Sys2Proof.Machine

@[simp] theorem answer_a (dout : Word) (s : State) : (answer dout s).a = s.a := rfl
@[simp] theorem answer_b (dout : Word) (s : State) : (answer dout s).b = s.b := rfl
@[simp] theorem answer_r (dout : Word) (s : State) : (answer dout s).r = s.r := rfl
@[simp] theorem answer_st (dout : Word) (s : State) : (answer dout s).st = s.st := rfl
@[simp] theorem answer_rsp (dout : Word) (s : State) : (answer dout s).rsp = some ⟨0, dout⟩ := rfl
@[simp] theorem answer_inputs (dout : Word) (s : State) : (answer dout s).inputs = s.inputs := rfl
@[simp] theorem answer_resets (dout : Word) (s : State) : (answer dout s).resets = s.resets := rfl

@[simp] theorem takeError_a (e : ErrorKind) (s : State) : (takeError e s).a = s.a := rfl
@[simp] theorem takeError_b (e : ErrorKind) (s : State) : (takeError e s).b = s.b := rfl
@[simp] theorem takeError_r (e : ErrorKind) (s : State) : (takeError e s).r = s.r := rfl
@[simp] theorem takeError_st (e : ErrorKind) (s : State) : (takeError e s).st = Status.failure e := rfl
@[simp] theorem takeError_rsp (e : ErrorKind) (s : State) : (takeError e s).rsp = some ⟨e.code, 0⟩ := rfl
@[simp] theorem takeError_inputs (e : ErrorKind) (s : State) : (takeError e s).inputs = s.inputs := rfl
@[simp] theorem takeError_resets (e : ErrorKind) (s : State) : (takeError e s).resets = s.resets := rfl

@[simp] theorem takeReset_a (p : Option Command) (s : State) : (takeReset p s).a = Config.resetA s.resets s.before := rfl
@[simp] theorem takeReset_b (p : Option Command) (s : State) : (takeReset p s).b = Config.resetB s.resets s.before := rfl
@[simp] theorem takeReset_r (p : Option Command) (s : State) : (takeReset p s).r = Config.resetR s.resets s.before := rfl
@[simp] theorem takeReset_st (p : Option Command) (s : State) : (takeReset p s).st = Status.atReset := rfl
@[simp] theorem takeReset_rsp (p : Option Command) (s : State) : (takeReset p s).rsp = none := rfl
@[simp] theorem takeReset_inputs (p : Option Command) (s : State) : (takeReset p s).inputs = s.inputs := rfl
@[simp] theorem takeReset_resets (p : Option Command) (s : State) : (takeReset p s).resets = s.resets + 1 := rfl

@[simp] theorem takenInput_a (rest : List Input) (s : State) : (takenInput rest s).a = s.a := rfl
@[simp] theorem takenInput_b (rest : List Input) (s : State) : (takenInput rest s).b = s.b := rfl
@[simp] theorem takenInput_r (rest : List Input) (s : State) : (takenInput rest s).r = s.r := rfl
@[simp] theorem takenInput_st (rest : List Input) (s : State) : (takenInput rest s).st = s.st := rfl
@[simp] theorem takenInput_rsp (rest : List Input) (s : State) : (takenInput rest s).rsp = s.rsp := rfl
@[simp] theorem takenInput_inputs (rest : List Input) (s : State) : (takenInput rest s).inputs = rest := rfl
@[simp] theorem takenInput_resets (rest : List Input) (s : State) : (takenInput rest s).resets = s.resets := rfl

@[simp] theorem issueNext_a (c : Command) (s : State) : (issueNext c s).a = s.a := rfl
@[simp] theorem issueNext_b (c : Command) (s : State) : (issueNext c s).b = s.b := rfl
@[simp] theorem issueNext_r (c : Command) (s : State) : (issueNext c s).r = s.r := rfl
@[simp] theorem issueNext_st (c : Command) (s : State) : (issueNext c s).st = s.st := rfl
@[simp] theorem issueNext_rsp (c : Command) (s : State) : (issueNext c s).rsp = s.rsp := rfl
@[simp] theorem issueNext_inputs (c : Command) (s : State) : (issueNext c s).inputs = .command c :: s.inputs := rfl
@[simp] theorem issueNext_resets (c : Command) (s : State) : (issueNext c s).resets = s.resets := rfl

@[simp] theorem illegalCommand_a (c : Command) (s : State) : (illegalCommand c s).a = s.a := rfl
@[simp] theorem illegalCommand_b (c : Command) (s : State) : (illegalCommand c s).b = s.b := rfl
@[simp] theorem illegalCommand_r (c : Command) (s : State) : (illegalCommand c s).r = s.r := rfl
@[simp] theorem illegalCommand_st (c : Command) (s : State) : (illegalCommand c s).st = Status.failure .illegalCommand := rfl
@[simp] theorem illegalCommand_rsp (c : Command) (s : State) : (illegalCommand c s).rsp = some ⟨5, 0⟩ := rfl
@[simp] theorem illegalCommand_inputs (c : Command) (s : State) : (illegalCommand c s).inputs = s.inputs := rfl
@[simp] theorem illegalCommand_resets (c : Command) (s : State) : (illegalCommand c s).resets = s.resets := rfl

@[simp] theorem idle_a (s : State) : (idle s).a = s.a := rfl
@[simp] theorem idle_b (s : State) : (idle s).b = s.b := rfl
@[simp] theorem idle_r (s : State) : (idle s).r = s.r := rfl
@[simp] theorem idle_st (s : State) : (idle s).st = s.st := rfl
@[simp] theorem idle_rsp (s : State) : (idle s).rsp = s.rsp := rfl
@[simp] theorem idle_inputs (s : State) : (idle s).inputs = s.inputs := rfl
@[simp] theorem idle_resets (s : State) : (idle s).resets = s.resets := rfl

@[simp] theorem okState_a (v : Word) (s : State) : (okState v s).a = s.a := rfl
@[simp] theorem okState_b (v : Word) (s : State) : (okState v s).b = s.b := rfl
@[simp] theorem okState_r (v : Word) (s : State) : (okState v s).r = v := rfl
@[simp] theorem okState_st (v : Word) (s : State) : (okState v s).st = ⟨0, true⟩ := rfl
@[simp] theorem okState_rsp (v : Word) (s : State) : (okState v s).rsp = some ⟨0, 0⟩ := rfl
@[simp] theorem okState_inputs (v : Word) (s : State) : (okState v s).inputs = s.inputs := rfl
@[simp] theorem okState_resets (v : Word) (s : State) : (okState v s).resets = s.resets := rfl

@[simp] theorem failState_a (code : ErrorCode) (s : State) : (failState code s).a = s.a := rfl
@[simp] theorem failState_b (code : ErrorCode) (s : State) : (failState code s).b = s.b := rfl
@[simp] theorem failState_r (code : ErrorCode) (s : State) : (failState code s).r = s.r := rfl
@[simp] theorem failState_st (code : ErrorCode) (s : State) : (failState code s).st = ⟨code, false⟩ := rfl
@[simp] theorem failState_rsp (code : ErrorCode) (s : State) : (failState code s).rsp = some ⟨code, 0⟩ := rfl
@[simp] theorem failState_inputs (code : ErrorCode) (s : State) : (failState code s).inputs = s.inputs := rfl
@[simp] theorem failState_resets (code : ErrorCode) (s : State) : (failState code s).resets = s.resets := rfl

@[simp] theorem commitResult_ok (v : Word) (s : State) : commitResult (.ok v) s = okState v s := rfl
@[simp] theorem commitResult_fail (k : FailKind) (s : State) : commitResult (.fail k) s = failState k.code s := rfl
@[simp] theorem commitResult_a (res : Result) (s : State) : (commitResult res s).a = s.a := by cases res <;> rfl
@[simp] theorem commitResult_b (res : Result) (s : State) : (commitResult res s).b = s.b := by cases res <;> rfl
@[simp] theorem commitResult_inputs (res : Result) (s : State) : (commitResult res s).inputs = s.inputs := by
  cases res <;> rfl
@[simp] theorem commitResult_resets (res : Result) (s : State) : (commitResult res s).resets = s.resets := by
  cases res <;> rfl

theorem takeError_eq (e : ErrorKind) (s : State) : takeError e s = failState e.code s := rfl
theorem illegalCommand_eq (c : Command) (s : State) : illegalCommand c s = failState 5 s := rfl
theorem takeReset_inProgress (p q : Option Command) (s : State) : takeReset p s = takeReset q s := rfl

end Sys2Proof.Laws
end

