-- ==== Sys2Proof/Laws/Ops.lean ====
section
/-! SUPPORT. What the shared operations can do, said once each: the integer functions, `ret`, the outcome of an `EXEC`,
and the cases of a step. -/

namespace Sys2Proof.Laws

open Sys2Proof Sys2Proof.Machine

/-! ### Integers and words -/

@[simp] theorem signed_eq (v : Word) : signed v = v.toInt := rfl
@[simp] theorem rawOf_eq (v : Word) : rawOf v = v.toInt := rfl
@[simp] theorem signedPlain_eq (v : Word) : signedPlain v = v.toInt := rfl
@[simp] theorem unsigned_eq (v : Word) : unsigned v = v.toNat := rfl
@[simp] theorem unsignedPlain_eq (v : Word) : unsignedPlain v = v.toNat := rfl

/-- Every word is in range (R11). -/
theorem toInt_bounds (v : Word) : -2 ^ 127 ≤ v.toInt ∧ v.toInt ≤ 2 ^ 127 - 1 := by
  have h1 := BitVec.le_toInt v
  have h2 := BitVec.toInt_lt (x := v)
  norm_num at h1 h2 ⊢
  omega

theorem inRange_iff (z : Int) : inRange z = true ↔ -2 ^ 127 ≤ z ∧ z ≤ 2 ^ 127 - 1 := by
  unfold inRange minRaw maxRaw
  exact decide_eq_true_iff

/-- `enc` is the right inverse of `S` on the range (00_scope.md section 5.2). -/
theorem enc_toInt {z : Int} (h1 : -2 ^ 127 ≤ z) (h2 : z ≤ 2 ^ 127 - 1) : (enc z).toInt = z := by
  rw [enc, BitVec.toInt_ofInt]
  norm_num at h1 h2
  rw [Int.bmod_eq_of_le] <;> norm_num <;> omega

/-- `enc` is the left inverse of `S`. -/
@[simp] theorem enc_of_toInt (v : Word) : enc v.toInt = v := BitVec.ofInt_toInt

/-- A word is `enc z` when it spells `z`. -/
theorem eq_enc {v : Word} {z : Int} (h : v.toInt = z) : v = enc z := by rw [← h, enc_of_toInt]

/-- `ret` in range. -/
theorem ret_ok {z : Int} (h1 : -2 ^ 127 ≤ z) (h2 : z ≤ 2 ^ 127 - 1) : ret z = .ok (enc z) := by
  simp only [ret, (inRange_iff z).2 ⟨h1, h2⟩, if_true]

/-- `ret` out of range. -/
theorem ret_fail {z : Int} (h : z < -2 ^ 127 ∨ 2 ^ 127 - 1 < z) : ret z = .fail .overflow := by
  have : inRange z = false := by
    rw [← Bool.not_eq_true, inRange_iff]; omega
  simp [ret, this]

/-- All `ret` can do: it answers the word that spells `z`, or Overflow where there is none. -/
theorem ret_cases (z : Int) :
    ((-2 ^ 127 ≤ z ∧ z ≤ 2 ^ 127 - 1) ∧ ∃ v : Word, v.toInt = z ∧ ret z = .ok v) ∨
    (¬(-2 ^ 127 ≤ z ∧ z ≤ 2 ^ 127 - 1) ∧ ret z = .fail .overflow) := by
  by_cases h : -2 ^ 127 ≤ z ∧ z ≤ 2 ^ 127 - 1
  · exact .inl ⟨h, enc z, enc_toInt h.1 h.2, ret_ok h.1 h.2⟩
  · exact .inr ⟨h, ret_fail (by omega)⟩

/-- `fdiv` is the floor of the exact quotient (00_scope.md section 5.2). -/
theorem floorDiv_eq_floor (a b : Int) : floorDiv a b = ⌊(a : ℚ) / b⌋ := by
  rcases le_total 0 b with hb | hb
  · obtain ⟨n, rfl⟩ := Int.eq_ofNat_of_zero_le hb
    rw [floorDiv, Int.fdiv_eq_ediv_of_nonneg a hb]
    exact_mod_cast (Rat.floor_intCast_div_natCast a n).symm
  · obtain ⟨n, hn⟩ := Int.eq_ofNat_of_zero_le (Int.neg_nonneg.2 hb)
    obtain rfl : b = -(n : Int) := by omega
    rw [floorDiv, ← Int.neg_fdiv_neg, neg_neg, Int.fdiv_eq_ediv_of_nonneg _ (by omega)]
    have h : (a : ℚ) / ((-(n : Int) : Int) : ℚ) = ((-a : Int) : ℚ) / (n : ℚ) := by
      push_cast
      rw [div_neg, neg_div]
    rw [h]
    exact (Rat.floor_intCast_div_natCast (-a) n).symm

/-- `asr` is Euclidean division by the power, since the power is positive. -/
theorem asr_eq_div (z : Int) (k : Nat) : asr z k = z / 2 ^ k :=
  Int.fdiv_eq_ediv_of_nonneg z (by positivity)

/-- A word's signed reading from its unsigned one. -/
theorem toInt_of_toNat (v : Word) : v.toInt = if v.toNat < 2 ^ 127 then (v.toNat : Int) else v.toNat - 2 ^ 128 := by
  rw [BitVec.toInt_eq_toNat_cond]
  split_ifs <;> norm_num at * <;> omega

/-- `fdiv` by a positive divisor, by its two bounds. -/
theorem floorDiv_bounds_pos (c : Int) {x : Int} (hx : 0 < x) :
    floorDiv c x * x ≤ c ∧ c < floorDiv c x * x + x := by
  have h := Int.mul_fdiv_add_fmod c x
  have h1 := Int.fmod_nonneg_of_pos c hx
  have h2 := Int.fmod_lt_of_pos c hx
  rw [mul_comm] at h
  unfold floorDiv
  omega

/-- `fdiv` by a negative divisor, by its two bounds. -/
theorem floorDiv_bounds_neg (c : Int) {x : Int} (hx : x < 0) :
    c ≤ floorDiv c x * x ∧ floorDiv c x * x + x < c := by
  have h := floorDiv_bounds_pos (-c) (x := -x) (by omega)
  rw [show floorDiv (-c) (-x) = floorDiv c x from Int.neg_fdiv_neg c x, mul_neg] at h
  omega

/-- `bit(z, i)` is the bit the library tests. -/
theorem bitAt_eq_one (z i : Nat) : bitAt z i = 1 ↔ z.testBit i = true := by
  simp [bitAt, Nat.testBit_eq_decide_div_mod_eq]

/-- `msb(z)` by its two bounds. -/
theorem msb_bounds {z : Nat} (h : z ≠ 0) : 2 ^ msb z ≤ z ∧ z < 2 ^ (msb z + 1) :=
  ⟨Nat.log2_self_le h, Nat.lt_log2_self⟩

/-- The floored half-sum of `AVG` is the floor of half the sum. -/
theorem halfSum_eq (x y : Int) : asr x 1 + asr y 1 + bothOdd x y = (x + y) / 2 := by
  simp only [asr_eq_div, bothOdd]
  split_ifs <;> omega

/-- The loop of R92 keeps its invariant: from a partial root with `r^2 <= z < (r + 2^n)^2` it answers the floor root. -/
theorem isqrtLoop_bounds (n : Nat) : ∀ z r : Nat, r * r ≤ z → z < (r + 2 ^ n) * (r + 2 ^ n) →
    isqrtLoop n z r * isqrtLoop n z r ≤ z ∧ z < (isqrtLoop n z r + 1) * (isqrtLoop n z r + 1) := by
  induction n with
  | zero =>
    intro z r h1 h2
    exact ⟨h1, h2⟩
  | succ n ih =>
    intro z r h1 h2
    rw [isqrtLoop]
    split_ifs with h
    · exact ih z _ h (by rw [show r + 2 ^ n + 2 ^ n = r + 2 ^ (n + 1) by ring]; exact h2)
    · exact ih z r h1 (by omega)

/-- All `isqrt` can do below `2^256`: it answers the largest `r` with `r * r <= z`. -/
theorem isqrt_bounds {z : Nat} (h : z < 2 ^ 128 * 2 ^ 128) :
    isqrt z * isqrt z ≤ z ∧ z < (isqrt z + 1) * (isqrt z + 1) :=
  isqrtLoop_bounds 128 z 0 (Nat.zero_le z) (by rw [zero_add]; exact h)

@[simp] theorem andThen_ok (v : Word) (f : Word → Result) : (Result.ok v).andThen f = f v := rfl
@[simp] theorem andThen_fail (k : FailKind) (f : Word → Result) : (Result.fail k).andThen f = .fail k := rfl

/-! ### Outcomes -/

/-- The function `F_op` of an `EXEC` command on the contents of `A` and `B`; no meaning for the interface commands, where
it is never used. -/
def opFunction : Instr → Word → Word → Result
  | .fromint, a, _ => fFromint a
  | .toint, a, _ => fToint a
  | .touint, a, _ => fTouint a
  | .fromuint, a, _ => fFromuint a
  | .add, a, b => fAdd a b
  | .sub, a, b => fSub a b
  | .abs, a, _ => fAbs a
  | .inv, a, _ => fInv a
  | .avg, a, b => fAvg a b
  | .gavg, a, b => fGavg a b
  | .mul, a, b => fMul a b
  | .div, a, b => fDiv a b
  | .shift, a, b => fShift a b
  | .pow, a, b => fPow a b
  | .sqrt, a, _ => fSqrt a
  | .log2, a, _ => fLog2 a
  | .exp2, a, _ => fExp2 a
  | .exp, a, _ => fExp a
  | .wra _, _, _ | .wrb _, _, _ | .rdr, _, _ | .rdst, _, _ => .ok 0

/-- Every `EXEC` commits the outcome of its function (R55). -/
theorem exec_of_isExec {i : Instr} (h : i.isExec = true) (s : State) :
    exec i s = .next (commitResult (opFunction i s.a s.b) s) := by
  cases i <;> first | rfl | cases h

/-- All an instruction can do: answer, after writing `A` or `B` or nothing; or commit the outcome of its function. -/
theorem exec_cases (i : Instr) (s : State) :
    (∃ din, i = .wra din ∧ exec i s = .next (answer 0 { s with a := din })) ∨
    (∃ din, i = .wrb din ∧ exec i s = .next (answer 0 { s with b := din })) ∨
    (i = .rdr ∧ exec i s = .next (answer s.r s)) ∨
    (i = .rdst ∧ exec i s = .next (answer (s.st.toWord.setWidth 128) s)) ∨
    (i.isExec = true ∧ exec i s = .next (commitResult (opFunction i s.a s.b) s)) := by
  cases i with
  | wra din => exact .inl ⟨din, rfl, rfl⟩
  | wrb din => exact .inr (.inl ⟨din, rfl, rfl⟩)
  | rdr => exact .inr (.inr (.inl ⟨rfl, rfl⟩))
  | rdst => exact .inr (.inr (.inr (.inl ⟨rfl, rfl⟩)))
  | _ => exact .inr (.inr (.inr (.inr ⟨rfl, rfl⟩)))

/-- What committing an outcome can leave. -/
theorem commitResult_cases (res : Result) (s : State) :
    (∃ v, res = .ok v ∧ commitResult res s = okState v s) ∨
    (∃ k, res = .fail k ∧ commitResult res s = failState k.code s) := by
  cases res with
  | ok v => exact .inl ⟨v, rfl, rfl⟩
  | fail k => exact .inr ⟨k, rfl, rfl⟩

/-- The code of a failed operation is one of 1 to 4 (R120). -/
theorem failCode_cases (k : FailKind) : k.code = 1 ∨ k.code = 2 ∨ k.code = 3 ∨ k.code = 4 := by
  cases k <;> simp [FailKind.code]

/-- All a step can do, by the first pending input. -/
theorem step_cases (s : State) :
    (s.inputs = [] ∧ step s = .next s) ∨
    (∃ p rest, s.inputs = .reset p :: rest ∧ step s = .next (takeReset p (takenInput rest s))) ∨
    (∃ c i rest, s.inputs = .command c :: rest ∧ decode c = .ok i ∧ step s = exec i (takenInput rest s)) ∨
    (∃ c e rest, s.inputs = .command c :: rest ∧ decode c = .error e ∧
      step s = .next (illegalCommand c (takenInput rest s))) := by
  rcases h : s.inputs with _ | ⟨⟨c⟩ | ⟨p⟩, rest⟩
  · exact .inl ⟨rfl, by simp [step, h, idle]⟩
  · rcases hd : decode c with e | i
    · exact .inr (.inr (.inr ⟨c, e, rest, rfl, hd, by simp [step, h, hd]⟩))
    · exact .inr (.inr (.inl ⟨c, i, rest, rfl, hd, by simp [step, h, hd]⟩))
  · exact .inr (.inl ⟨p, rest, rfl, by simp [step, h]⟩)

/-! ### Runs -/

@[simp] theorem runSteps_zero (s : State) : runSteps 0 s = .next s := rfl

/-- A run of one step more, when the first step answers `t`. -/
theorem runSteps_succ {s t : State} (h : step s = .next t) (n : Nat) : runSteps (n + 1) s = runSteps n t := by
  simp only [runSteps, h]

/-- One step of the host's run of any machine. -/
theorem run_succ_of_next (M : Host.Core) {s t : M.State} (h : M.step s = .next t) (n : Nat) :
    M.run (n + 1) s = M.run n t := by simp only [Host.Core.run, h]

/-- `runSteps` is the host's run of the machine. -/
theorem core_run_eq (n : Nat) (s : State) : Host.Core.run core n s = runSteps n s := by
  induction n generalizing s with
  | zero => rfl
  | succ n ih =>
    rcases hs : step s with t | e | e
    · rw [runSteps_succ hs]
      exact (run_succ_of_next core (s := s) (t := t) hs n).trans (ih t)
    · cases e
    · rcases step_cases s with ⟨_, h⟩ | ⟨p, rest, _, h⟩ | ⟨c, i, rest, _, _, h⟩ | ⟨c, er, rest, _, _, h⟩ <;> rw [hs] at h
      · cases h
      · cases h
      · rcases exec_cases i (takenInput rest s) with ⟨d, _, h'⟩ | ⟨d, _, h'⟩ | ⟨_, h'⟩ | ⟨_, h'⟩ | ⟨_, h'⟩ <;>
          rw [h'] at h <;> cases h
      · cases h

end Sys2Proof.Laws
end

