-- ==== Sys2Proof/Laws/Loops.lean ====
section
/-! SUPPORT. What the loops of `POW`, `LOG2` and `EXP2` can do: enough fuel is enough, every product is a word or Overflow,
and the internal ratio stays in Q1.127. -/

namespace Sys2Proof.Laws

open Sys2Proof Sys2Proof.Machine

/-- All a product can do: a word, or Overflow. -/
theorem fMul_cases (a b : Word) : (∃ v, fMul a b = .ok v) ∨ fMul a b = .fail .overflow := by
  rcases ret_cases (asr (rawOf a * rawOf b) 64) with ⟨_, v, _, h⟩ | ⟨_, h⟩
  · exact .inl ⟨v, h⟩
  · exact .inr h

/-- The `POW` loop is the same with any two amounts of fuel that its exponent fits in. -/
theorem powLoop_fuel (m : Nat) : ∀ n r b e, e < 2 ^ m → e < 2 ^ n → powLoop m r b e = powLoop n r b e := by
  induction m with
  | zero =>
    intro n r b e h1 h2
    obtain rfl : e = 0 := by omega
    cases n <;> simp [powLoop]
  | succ m ih =>
    intro n r b e h1 h2
    cases n with
    | zero =>
      obtain rfl : e = 0 := by omega
      simp [powLoop]
    | succ n =>
      have h : ∀ r b, powLoop m r b (e / 2) = powLoop n r b (e / 2) := fun r b => ih n r b _ (by omega) (by omega)
      simp only [powLoop, h]

/-- One iteration of `LOG2` on a ratio in Q1.127: the bit is 0 or 1, and the next ratio is in Q1.127 again (R100). -/
theorem log2Iteration_bounds {m : Nat} (h1 : 2 ^ 127 ≤ m) (h2 : m < 2 ^ 128) :
    m * m / 2 ^ 255 ≤ 1 ∧ bitAt (m * m) 255 = m * m / 2 ^ 255 ∧
      2 ^ 127 ≤ m * m / 2 ^ (127 + m * m / 2 ^ 255) ∧ m * m / 2 ^ (127 + m * m / 2 ^ 255) < 2 ^ 128 := by
  have h3 : m * m < 2 ^ 256 := by nlinarith
  have h4 : 2 ^ 254 ≤ m * m := by nlinarith
  have h5 : m * m / 2 ^ 255 ≤ 1 := by omega
  refine ⟨h5, by unfold bitAt; omega, ?_⟩
  rcases (by omega : m * m / 2 ^ 255 = 0 ∨ m * m / 2 ^ 255 = 1) with h | h <;> rw [h] <;> norm_num <;> omega

/-- What the 64 iterations add: at least 0 and less than `2^n` (R100). -/
theorem log2Loop_bounds (n : Nat) : ∀ m res, 2 ^ 127 ≤ m → m < 2 ^ 128 →
    res ≤ log2Loop n m res ∧ log2Loop n m res < res + 2 ^ n := by
  induction n with
  | zero =>
    intro m res _ _
    simp [log2Loop]
  | succ n ih =>
    intro m res h1 h2
    have hb := log2Iteration_bounds h1 h2
    have h := ih _ (res + (m * m / 2 ^ 255 : Nat) * 2 ^ n) hb.2.2.1 hb.2.2.2
    have hp : (0 : Int) < 2 ^ n := by positivity
    rw [log2Loop, hb.2.1, show (2 : Int) ^ (n + 1) = 2 ^ n * 2 from pow_succ _ _]
    rcases (by omega : m * m / 2 ^ 255 = 0 ∨ m * m / 2 ^ 255 = 1) with h' | h' <;> rw [h'] at h ⊢ <;> push_cast at * <;>
      omega

/-- Every table entry has bit 127 set (R21). -/
theorem romT_ge {i : Nat} (h1 : 1 ≤ i) (h2 : i ≤ 64) : 2 ^ 127 ≤ (Rom.t i).toNat := by
  have h : ∀ i ∈ List.range' 1 64, 2 ^ 127 ≤ (Rom.t i).toNat := by decide +kernel
  exact h i (by simp; omega)

/-- The table steps of `EXP2` never lower the product, and keep the order of two products (R101). -/
theorem exp2Loop_mono (n : Nat) (hn : n ≤ 64) : ∀ f m m' : Nat, m ≤ m' →
    m ≤ exp2Loop n f m ∧ exp2Loop n f m ≤ exp2Loop n f m' := by
  induction n with
  | zero =>
    intro f m m' h
    exact ⟨le_rfl, h⟩
  | succ n ih =>
    intro f m m' h
    have ht := romT_ge (i := 64 - n) (by omega) (by omega)
    have hge : m ≤ m * unsigned (Rom.t (64 - n)) / 2 ^ 127 := by
      rw [Nat.le_div_iff_mul_le (by norm_num)]
      exact Nat.mul_le_mul_left m ht
    rw [exp2Loop, exp2Loop]
    split_ifs
    · exact ⟨hge.trans (ih (by omega) f _ _ le_rfl).1, (ih (by omega) f _ _ (by gcongr)).2⟩
    · exact ih (by omega) f m m' h

end Sys2Proof.Laws
end

