-- ==== Sys2Proof/Laws/PerInstr.lean ====
section
/-! SUPPORT. Statements about every instruction as syntax, one lemma per constructor. -/

namespace Sys2Proof.Laws

open Sys2Proof

/-- The encoding of an instruction is legal (R44), stands in group 0 exactly when the instruction is no `EXEC`, and is an
index of that group that the source's order gives (R40). -/
def EncodingIsLegal.Statement (i : Instr) : Prop :=
  legalCommandWord (encode i).cw = true ∧ (encode i).wellFormed = i.wellFormed ∧
    (i.isExec = true ↔ 1 ≤ CommandWord.grp (encode i).cw) ∧ (i.readsB = true → i.isExec = true) ∧
    (encode i).cw = BitVec.ofNat 8 (CommandWord.grp (encode i).cw * 16 + CommandWord.idx (encode i).cw)

theorem EncodingIsLegal.wra (din : Word) : EncodingIsLegal.Statement (.wra din) :=
  ⟨(show legalCommandWord 0x01 = true by decide), (show legalCommandWord 0x01 = true by decide),
    (show false = true ↔ 1 ≤ CommandWord.grp 0x01 by decide),
    (fun h => absurd h Bool.false_ne_true),
    (show (0x01 : CommandWord) = BitVec.ofNat 8 (CommandWord.grp 0x01 * 16 + CommandWord.idx 0x01) by decide)⟩
theorem EncodingIsLegal.wrb (din : Word) : EncodingIsLegal.Statement (.wrb din) :=
  ⟨(show legalCommandWord 0x02 = true by decide), (show legalCommandWord 0x02 = true by decide),
    (show false = true ↔ 1 ≤ CommandWord.grp 0x02 by decide),
    (fun h => absurd h Bool.false_ne_true),
    (show (0x02 : CommandWord) = BitVec.ofNat 8 (CommandWord.grp 0x02 * 16 + CommandWord.idx 0x02) by decide)⟩
theorem EncodingIsLegal.rdr : EncodingIsLegal.Statement .rdr := ⟨rfl, rfl, by decide, by decide, rfl⟩
theorem EncodingIsLegal.rdst : EncodingIsLegal.Statement .rdst := ⟨rfl, rfl, by decide, by decide, rfl⟩
theorem EncodingIsLegal.fromint : EncodingIsLegal.Statement .fromint := ⟨rfl, rfl, by decide, by decide, rfl⟩
theorem EncodingIsLegal.toint : EncodingIsLegal.Statement .toint := ⟨rfl, rfl, by decide, by decide, rfl⟩
theorem EncodingIsLegal.touint : EncodingIsLegal.Statement .touint := ⟨rfl, rfl, by decide, by decide, rfl⟩
theorem EncodingIsLegal.fromuint : EncodingIsLegal.Statement .fromuint := ⟨rfl, rfl, by decide, by decide, rfl⟩
theorem EncodingIsLegal.add : EncodingIsLegal.Statement .add := ⟨rfl, rfl, by decide, by decide, rfl⟩
theorem EncodingIsLegal.sub : EncodingIsLegal.Statement .sub := ⟨rfl, rfl, by decide, by decide, rfl⟩
theorem EncodingIsLegal.abs : EncodingIsLegal.Statement .abs := ⟨rfl, rfl, by decide, by decide, rfl⟩
theorem EncodingIsLegal.inv : EncodingIsLegal.Statement .inv := ⟨rfl, rfl, by decide, by decide, rfl⟩
theorem EncodingIsLegal.avg : EncodingIsLegal.Statement .avg := ⟨rfl, rfl, by decide, by decide, rfl⟩
theorem EncodingIsLegal.gavg : EncodingIsLegal.Statement .gavg := ⟨rfl, rfl, by decide, by decide, rfl⟩
theorem EncodingIsLegal.mul : EncodingIsLegal.Statement .mul := ⟨rfl, rfl, by decide, by decide, rfl⟩
theorem EncodingIsLegal.div : EncodingIsLegal.Statement .div := ⟨rfl, rfl, by decide, by decide, rfl⟩
theorem EncodingIsLegal.shift : EncodingIsLegal.Statement .shift := ⟨rfl, rfl, by decide, by decide, rfl⟩
theorem EncodingIsLegal.pow : EncodingIsLegal.Statement .pow := ⟨rfl, rfl, by decide, by decide, rfl⟩
theorem EncodingIsLegal.sqrt : EncodingIsLegal.Statement .sqrt := ⟨rfl, rfl, by decide, by decide, rfl⟩
theorem EncodingIsLegal.log2 : EncodingIsLegal.Statement .log2 := ⟨rfl, rfl, by decide, by decide, rfl⟩
theorem EncodingIsLegal.exp2 : EncodingIsLegal.Statement .exp2 := ⟨rfl, rfl, by decide, by decide, rfl⟩
theorem EncodingIsLegal.exp : EncodingIsLegal.Statement .exp := ⟨rfl, rfl, by decide, by decide, rfl⟩

end Sys2Proof.Laws
end

