-- ==== Sys2Proof/Tests/Slice0.lean ====
section
/-! SUPPORT. Tests: each checks one command or one operation, with results from the spec's corner cases and examples (the rule
of each instruction, and spec/95_test_vectors.md); and for each obligation with hypotheses a named witness that meets them, at
the boundary values of every clause. -/

namespace Sys2Proof.Tests

open Sys2Proof Sys2Proof.Machine

/-! ### Helpers -/

def lowest : Word := 0x80000000000000000000000000000000
def highest : Word := 0x7FFFFFFFFFFFFFFFFFFFFFFFFFFFFFFF
def fx (n : Int) : Word := enc (n * 2 ^ 64)

/-- A unit with the given operands, an older result `0x77` in `R`, and an earlier error in `ST`. -/
def unitWith (a b : Word) : State := ⟨a, b, 0x77, ⟨5, false⟩, none, [], 1⟩

/-- The answered code and the new `R`, if the instruction answers a next state with the operands as they were, the status
the answer calls for, and data 0. -/
def after (i : Instr) (a b : Word) : Option (ErrorCode × Word) :=
  match exec i (unitWith a b) with
  | .next t =>
    match t.rsp with
    | some p =>
      if t.a = a ∧ t.b = b ∧ t.st = ⟨p.err, decide (p.err = 0)⟩ ∧ p.dout = 0 then some (p.err, t.r) else none
    | none => none
  | _ => none

/-- A success with `v`, and a failure with a code: `R` then holds what it held. -/
def gives (v : Word) : Option (ErrorCode × Word) := some (0, v)
def failsWith (code : ErrorCode) : Option (ErrorCode × Word) := some (code, 0x77)

/-! ### Decoding: every command word of R43, written out as group and index bits -/

theorem test_decode_interface :
    decode ⟨0b00000001#8, 0xABC⟩ = .ok (.wra 0xABC) ∧ decode ⟨0b00000010#8, 0xABC⟩ = .ok (.wrb 0xABC) ∧
    decode ⟨0b00000011#8, 0xABC⟩ = .ok .rdr ∧ decode ⟨0b00000100#8, 0xABC⟩ = .ok .rdst := by decide

theorem test_decode_conversion :
    decode ⟨0b00010000#8, 0⟩ = .ok .fromint ∧ decode ⟨0b00010001#8, 0⟩ = .ok .toint ∧
    decode ⟨0b00010010#8, 0⟩ = .ok .touint ∧ decode ⟨0b00010011#8, 0⟩ = .ok .fromuint := by decide

theorem test_decode_core_arithmetic :
    decode ⟨0b00100000#8, 0⟩ = .ok .add ∧ decode ⟨0b00100001#8, 0⟩ = .ok .sub ∧ decode ⟨0b00100010#8, 0⟩ = .ok .abs ∧
    decode ⟨0b00100011#8, 0⟩ = .ok .inv ∧ decode ⟨0b00100100#8, 0⟩ = .ok .avg ∧ decode ⟨0b00100101#8, 0⟩ = .ok .gavg ∧
    decode ⟨0b00100110#8, 0⟩ = .ok .mul ∧ decode ⟨0b00100111#8, 0⟩ = .ok .div ∧
    decode ⟨0b00101000#8, 0⟩ = .ok .shift := by decide

theorem test_decode_power_root :
    decode ⟨0b00110000#8, 0⟩ = .ok .pow ∧ decode ⟨0b00110001#8, 0⟩ = .ok .sqrt := by decide

theorem test_decode_transcendental :
    decode ⟨0b01000000#8, 0⟩ = .ok .log2 ∧ decode ⟨0b01000001#8, 0⟩ = .ok .exp2 ∧
    decode ⟨0b01000010#8, 0⟩ = .ok .exp := by decide

/-- The same command with its data word above the command word, as `decodeTableWord` numbers the bits. -/
theorem test_decode_table_word :
    decodeTableWord 8 0x01 = some (.wra 0) ∧ decodeTableWord 8 0x28 = some .shift ∧
    decodeTableWord 136 0xC801 = some (.wra 0xC8) ∧ decodeTableWord 8 0xFF = none := by decide

/-- The illegal words at the edges of every range of R44 are refused by name. -/
theorem test_decode_illegal_words :
    ∀ cw ∈ ([0x00, 0x05, 0x0F, 0x14, 0x1F, 0x29, 0x2F, 0x32, 0x3F, 0x43, 0x4F, 0x50, 0xFF] : List CommandWord),
      decode ⟨cw, 0⟩ = .error (.illegalCommand cw) := by decide

/-! ### Well-formedness -/

/-- The legality check refuses an ill-formed command word of each kind: index 0 or too high in group 0, an index too high in
groups 1 to 4, a reserved group; and accepts the neighbours. -/
theorem test_wellformed_refuses :
    (∀ cw ∈ ([0x00, 0x05, 0x14, 0x29, 0x32, 0x43, 0x50, 0xFF] : List CommandWord),
      Command.wellFormed ⟨cw, 0⟩ = false) ∧
    (∀ cw ∈ ([0x01, 0x04, 0x10, 0x13, 0x20, 0x28, 0x30, 0x31, 0x40, 0x42] : List CommandWord),
      Command.wellFormed ⟨cw, 0⟩ = true) := by decide

/-! ### Interface commands (R51 to R54) -/

theorem test_wra : exec (.wra 7) (unitWith 1 2) = .next ⟨7, 2, 0x77, ⟨5, false⟩, some ⟨0, 0⟩, [], 1⟩ := by rfl

theorem test_wrb : exec (.wrb 7) (unitWith 1 2) = .next ⟨1, 7, 0x77, ⟨5, false⟩, some ⟨0, 0⟩, [], 1⟩ := by rfl

theorem test_rdr : exec .rdr (unitWith 1 2) = .next ⟨1, 2, 0x77, ⟨5, false⟩, some ⟨0, 0x77⟩, [], 1⟩ := by rfl

theorem test_rdst :
    exec .rdst (unitWith 1 2) = .next ⟨1, 2, 0x77, ⟨5, false⟩, some ⟨0, 0x05⟩, [], 1⟩ ∧
    exec .rdst ⟨1, 2, 3, ⟨0, true⟩, none, [], 1⟩ = .next ⟨1, 2, 3, ⟨0, true⟩, some ⟨0, 0x08⟩, [], 1⟩ := by
  constructor <;> rfl

/-! ### Conversion (R60 to R63) -/

theorem test_fromint :
    after .fromint 2 0 = gives 0x00000000000000020000000000000000 ∧
    after .fromint (enc (2 ^ 63 - 1)) 0 = gives 0x7FFFFFFFFFFFFFFF0000000000000000 ∧
    after .fromint (enc (2 ^ 63)) 0 = failsWith 1 ∧ after .fromint (enc (-2 ^ 63)) 0 = gives lowest ∧
    after .fromint (enc (-2 ^ 63 - 1)) 0 = failsWith 1 := by decide +kernel

theorem test_toint :
    after .toint 0xFFFFFFFFFFFFFFFF8000000000000000 0 = gives 0xFFFFFFFFFFFFFFFFFFFFFFFFFFFFFFFF ∧
    after .toint lowest 0 = gives (enc (-2 ^ 63)) ∧ after .toint highest 0 = gives (enc (2 ^ 63 - 1)) := by decide +kernel

theorem test_touint :
    after .touint 0x00000000000000030000000000000005 0 = gives 3 ∧ after .touint (enc (-1)) 0 = failsWith 4 ∧
    after .touint 0 0 = gives 0 ∧ after .touint highest 0 = gives (enc (2 ^ 63 - 1)) := by decide +kernel

theorem test_fromuint :
    after .fromuint 0x7FFFFFFFFFFFFFFF 0 = gives 0x7FFFFFFFFFFFFFFF0000000000000000 ∧
    after .fromuint 0x8000000000000000 0 = failsWith 1 ∧ after .fromuint (enc (-1)) 0 = failsWith 1 := by decide +kernel

/-! ### Core arithmetic (R70 to R78) -/

theorem test_add :
    after .add (fx 1) (fx 2) = gives (fx 3) ∧ after .add highest 0 = gives highest ∧ after .add highest 1 = failsWith 1 ∧
    after .add lowest (enc (-1)) = failsWith 1 ∧ after .add lowest highest = gives (enc (-1)) := by decide +kernel

theorem test_sub :
    after .sub (fx 3) (fx 2) = gives (fx 1) ∧ after .sub 0 lowest = failsWith 1 ∧
    after .sub (enc (-1)) lowest = gives highest ∧ after .sub lowest 1 = failsWith 1 := by decide +kernel

theorem test_abs :
    after .abs (fx (-1)) 0 = gives (fx 1) ∧ after .abs lowest 0 = failsWith 1 ∧
    after .abs (enc (-2 ^ 127 + 1)) 0 = gives highest := by decide +kernel

theorem test_inv :
    after .inv 0 0 = failsWith 2 ∧ after .inv 1 0 = failsWith 1 ∧ after .inv 2 0 = failsWith 1 ∧
    after .inv (enc (-1)) 0 = failsWith 1 ∧ after .inv (enc (-2)) 0 = gives lowest ∧
    after .inv 3 0 = gives 0x55555555555555555555555555555555 ∧
    after .inv (fx (-3)) 0 = gives 0xFFFFFFFFFFFFFFFFAAAAAAAAAAAAAAAA := by decide +kernel

theorem test_avg :
    after .avg (fx 1) (fx 2) = gives 0x00000000000000018000000000000000 ∧
    after .avg (enc (-1)) (enc (-2)) = gives (enc (-2)) ∧ after .avg highest highest = gives highest ∧
    after .avg highest lowest = gives (enc (-1)) := by decide +kernel

theorem test_gavg :
    after .gavg (fx 2) (fx 3) = gives 0x00000000000000027311C2812425CFA0 ∧ after .gavg 1 (enc (-1)) = failsWith 3 ∧
    after .gavg 0 (enc (-1)) = gives 0 ∧ after .gavg lowest lowest = failsWith 1 ∧
    after .gavg lowest (enc (-2 ^ 127 + 1)) = gives highest := by decide +kernel

theorem test_mul :
    after .mul (fx (-3)) (fx (-3)) = gives (fx 9) ∧ after .mul (enc (-1)) 1 = gives (enc (-1)) ∧
    after .mul (enc (2 ^ 126)) (fx 2) = failsWith 1 ∧ after .mul (enc (2 ^ 126)) (fx (-2)) = gives lowest := by
  decide +kernel

theorem test_div :
    after .div (fx 1) (fx (-2)) = gives 0xFFFFFFFFFFFFFFFF8000000000000000 ∧ after .div lowest 0 = failsWith 2 ∧
    after .div lowest (fx (-1)) = failsWith 1 ∧ after .div lowest highest = gives (enc (-2 ^ 64 - 1)) := by
  decide +kernel

theorem test_shift_left :
    after .shift lowest 0 = gives lowest ∧ after .shift (fx 1) 62 = gives (enc (2 ^ 126)) ∧
    after .shift (fx 1) 63 = failsWith 1 ∧ after .shift (enc (-1)) 127 = gives lowest ∧
    after .shift (enc (-1)) 128 = failsWith 1 ∧ after .shift 1 highest = failsWith 1 ∧
    after .shift 0 highest = gives 0 := by decide +kernel

theorem test_shift_right :
    after .shift 0x00000000000000058000000000000000 (enc (-1)) = gives 0x0000000000000002C000000000000000 ∧
    after .shift (enc (-3)) (enc (-1)) = gives (enc (-2)) ∧ after .shift (fx 1) (enc (-65)) = gives 0 ∧
    after .shift highest lowest = gives 0 ∧ after .shift lowest lowest = gives (enc (-1)) := by decide +kernel

/-! ### Power and root (R90, R91) -/

theorem test_pow_exact :
    after .pow lowest 0 = gives (fx 1) ∧ after .pow lowest 1 = gives lowest ∧ after .pow (fx 10) 18 = gives (fx (10 ^ 18)) ∧
    after .pow (fx 10) 19 = failsWith 1 ∧ after .pow (fx (-2)) 63 = gives lowest ∧
    after .pow (fx (-2)) 64 = failsWith 1 := by decide +kernel

theorem test_pow_floored :
    after .pow 0x00000000000000005555555555555555 3 = gives 0x0000000000000000097B425ED097B425 ∧
    after .pow (enc (2 ^ 63)) 64 = gives 1 ∧ after .pow (enc (-1)) 3 = gives 0 ∧
    after .pow (fx (-1)) (enc (-1)) = gives (fx (-1)) := by decide +kernel

theorem test_sqrt :
    after .sqrt (fx 2) 0 = gives 0x00000000000000016A09E667F3BCC908 ∧ after .sqrt (enc (-1)) 0 = failsWith 3 ∧
    after .sqrt 0 0 = gives 0 ∧ after .sqrt highest 0 = gives 0x00000000B504F333F9DE6484597D89B3 := by decide +kernel

/-! ### Transcendental operations (R100 to R102) -/

theorem test_log2 :
    after .log2 (fx 10) 0 = gives 0x00000000000000035269E12F346E2BF9 ∧ after .log2 0 0 = failsWith 3 ∧
    after .log2 1 0 = gives (fx (-64)) ∧ after .log2 highest 0 = gives 0x000000000000003EFFFFFFFFFFFFFFFF := by
  decide +kernel

theorem test_exp2 :
    after .exp2 0x000000000000000A8000000000000000 0 = gives 0x00000000000005A827999FCEF3242000 ∧
    after .exp2 (fx 63) 0 = failsWith 1 ∧ after .exp2 (enc (63 * 2 ^ 64 - 1)) 0 = gives 0x7FFFFFFFFFFFFFFF8000000000000000 ∧
    after .exp2 (fx (-63)) 0 = gives 2 ∧ after .exp2 (enc (-63 * 2 ^ 64 - 1)) 0 = failsWith 1 := by decide +kernel

theorem test_exp :
    after .exp (fx 1) 0 = gives 0x0000000000000002B7E151628AED2A68 ∧
    after .exp 0x000000000000002BAB13E5FCA20EF155 0 = gives 0x7FFFFFFFFFFFFFFF8000000000000000 ∧
    after .exp 0x000000000000002BAB13E5FCA20EF156 0 = failsWith 1 ∧
    after .exp 0xFFFFFFFFFFFFFFD454EC1A035DF10EAB 0 = gives 2 ∧
    after .exp 0xFFFFFFFFFFFFFFD454EC1A035DF10EAA 0 = failsWith 1 := by decide +kernel

/-! ### Steps -/

/-- An illegal word, with any data, changes `ST` and nothing else (R128). -/
theorem test_step_illegal :
    step { unitWith 1 2 with inputs := [.command ⟨0xFF, 9⟩] } = .next ⟨1, 2, 0x77, ⟨5, false⟩, some ⟨5, 0⟩, [], 1⟩ := by rfl

/-- The first instruction after reset is the one placed where step takes its next. -/
theorem test_step_fetched : step (State.reset.withFetchWord 8 0x20) = exec .add State.reset := by rfl

/-- A reset at a later time clears `ST` and the response (R140). -/
theorem test_step_reset :
    ∃ t, step { unitWith 1 2 with inputs := [.reset (some ⟨0x26, 0⟩)] } = .next t ∧ t.st = ⟨0, false⟩ ∧ t.rsp = none :=
  ⟨_, rfl, rfl, rfl⟩

/-- The source's nested call `toInt(add(fromInt(1), fromInt(2)))` in the expansion of R46. -/
theorem test_nested_call :
    (runLines (call1 .fromint (.int 2) ++ [.wrb .lastRead] ++ call1 .fromint (.int 1) ++ [.wra .lastRead, .plain .add] ++
      mvra ++ [.plain .toint, .plain .rdr]) (unitWith 1 2) none).map (fun p => p.2) = some (some 3) := by decide +kernel

/-- `$` before any `RDR`, and an `int` or `fx` out of its range, stand for no command. -/
theorem test_lines_without_command :
    Line.command none (.wra .lastRead) = none ∧ Line.command none (.wrb (.int (2 ^ 127))) = none ∧
    Line.command none (.wra (.fx (2 ^ 63))) = none ∧ Line.command none (.word 0x32) = some ⟨0x32, 0⟩ := by decide

/-! ### Witnesses: states and operands that meet the hypotheses of the obligations -/

theorem witness_EncodedInstructionsDecodeBack : (Instr.wra 5).wellFormed = true := by decide

theorem witness_DecodedCommandsAreTheLegalOnes :
    decode ⟨0x42, 9⟩ = .ok .exp ∧ (Command.wellFormed ⟨0x43, 9⟩) = false ∧ decode ⟨0x02, 9⟩ = .ok (.wrb 9) := by decide

/-- Both sides of every edge of the illegal ranges. -/
theorem witness_IllegalCommandWordsTakeTheirError :
    State.inputs { unitWith 1 2 with inputs := [.command ⟨0x05, 9⟩] } = .command ⟨0x05, 9⟩ :: [] ∧
    (∀ n ∈ [0x00, 0x05, 0x0F, 0x14, 0x1F, 0x29, 0x2F, 0x32, 0x3F, 0x43, 0x4F, 0x50, 0xFF], illegalWordRange n = true) ∧
    (∀ n ∈ [0x01, 0x04, 0x10, 0x13, 0x20, 0x28, 0x30, 0x31, 0x40, 0x42], illegalWordRange n = false) := by decide

theorem witness_UnreadInputsAreIgnored :
    Instr.exp ∈ [Instr.fromint, .toint, .touint, .fromuint, .abs, .inv, .sqrt, .log2, .exp2, .exp] ∧
    (0x03 : CommandWord) ≠ 0x01 ∧ (0x03 : CommandWord) ≠ 0x02 := by decide

theorem witness_StepRunsTheDecodedCommand :
    State.inputs { unitWith 1 2 with inputs := [.command ⟨0x26, 9⟩] } = .command ⟨0x26, 9⟩ :: [] ∧
    decode ⟨0x26, 9⟩ = .ok .mul := by decide

theorem witness_IdleAndResetSteps : (unitWith 1 2).inputs = [] := by decide

theorem witness_LaterInputsDoNotReachBack :
    runSteps [Input.command ⟨0x01, 9⟩].length { unitWith 1 2 with inputs := [Input.command ⟨0x01, 9⟩] } =
      .next ⟨9, 2, 0x77, ⟨5, false⟩, some ⟨0, 0⟩, [], 1⟩ := by rfl

theorem witness_EveryStepKeepsTheInvariant :
    ∃ s t : State, s.Inv ∧ s.st.err = 5 ∧ step s = .next t ∧ t.st ≠ s.st :=
  ⟨{ unitWith 0 0 with inputs := [.command ⟨0x23, 0⟩], rsp := some ⟨5, 0⟩ }, _,
    ⟨⟨by decide, by decide⟩, by rintro p ⟨⟩; exact ⟨by decide, fun _ => ⟨rfl, rfl⟩⟩⟩, rfl, rfl, by decide⟩

theorem witness_ResultValidHistory :
    (State.reset).st = ⟨0, false⟩ ∧ State.inputs { State.reset with inputs := [.command ⟨0x20, 0⟩] } =
      [(⟨0x20, 0⟩ : Command)].map Input.command ∧ Instr.add.isExec = true ∧ Instr.rdr.isExec = false :=
  ⟨rfl, rfl, rfl, rfl⟩

theorem witness_ExecCommitsAFunctionOfItsOperands : Instr.div.isExec = true := by decide

/-- One step that changes each register. -/
theorem witness_RegistersHaveTheirWriters :
    (∃ t, step { unitWith 1 2 with inputs := [.command ⟨0x01, 9⟩] } = .next t ∧ t.a ≠ 1) ∧
    (∃ t, step { unitWith 1 2 with inputs := [.command ⟨0x02, 9⟩] } = .next t ∧ t.b ≠ 2) ∧
    (∃ t, step { unitWith 1 2 with inputs := [.command ⟨0x20, 9⟩] } = .next t ∧ t.r ≠ 0x77 ∧ t.st ≠ ⟨5, false⟩) :=
  ⟨⟨_, rfl, by decide⟩, ⟨_, rfl, by decide⟩, ⟨_, rfl, by decide +kernel, by decide +kernel⟩⟩

theorem witness_RepeatedCommandsChangeNothingMore :
    exec (.wra 7) (unitWith 1 2) = .next ⟨7, 2, 0x77, ⟨5, false⟩, some ⟨0, 0⟩, [], 1⟩ := by rfl

/-- A state reached from reset, after an illegal command. -/
theorem witness_StatusRead : ∃ s, ReachedFromReset [.command ⟨0x00, 0⟩] 1 s ∧ s.st = ⟨5, false⟩ := ⟨_, rfl, rfl⟩

/-- `FROMINT`, `TOINT`, `TOUINT`, `FROMUINT`: the last operand inside and the first outside. -/
theorem witness_conversion_ranges :
    (-2 ^ 63 ≤ (enc (-2 ^ 63)).toInt ∧ (enc (-2 ^ 63)).toInt ≤ 2 ^ 63 - 1) ∧ (enc (2 ^ 63 - 1)).toInt ≤ 2 ^ 63 - 1 ∧
    (enc (-2 ^ 63 - 1)).toInt < -2 ^ 63 ∧ 2 ^ 63 - 1 < (enc (2 ^ 63)).toInt ∧
    (enc (-1)).toInt < 0 ∧ 0 ≤ (enc 0).toInt ∧
    (enc (2 ^ 63 - 1)).toNat < 2 ^ 63 ∧ 2 ^ 63 ≤ (enc (2 ^ 63)).toNat := by decide +kernel

/-- `ADD` and `SUB`: the last pair inside and the first outside, at both ends. -/
theorem witness_sum_ranges :
    Representable (highest.toInt + (0 : Word).toInt) ∧ ¬Representable (highest.toInt + (1 : Word).toInt) ∧
    Representable (lowest.toInt + (0 : Word).toInt) ∧ ¬Representable (lowest.toInt + (enc (-1)).toInt) ∧
    Representable ((enc (-1)).toInt - lowest.toInt) ∧ ¬Representable ((0 : Word).toInt - lowest.toInt) := by decide +kernel

/-- `ABS` and `INV`: each clause, and the operands next to where they meet. -/
theorem witness_abs_inv_cases :
    lowest = 0x80000000000000000000000000000000 ∧ enc (-2 ^ 127 + 1) ≠ 0x80000000000000000000000000000000 ∧
    (0 : Word).toInt = 0 ∧ (1 : Word).toInt = 1 ∧ (2 : Word).toInt = 2 ∧ (enc (-1)).toInt = -1 ∧
    ((3 : Word).toInt ≠ 0 ∧ (3 : Word).toInt ≠ 1 ∧ (3 : Word).toInt ≠ 2 ∧ (3 : Word).toInt ≠ -1) ∧
    ((enc (-2)).toInt ≠ 0 ∧ (enc (-2)).toInt ≠ 1 ∧ (enc (-2)).toInt ≠ 2 ∧ (enc (-2)).toInt ≠ -1) := by decide +kernel

/-- `GAVG`: each clause. -/
theorem witness_GavgResult :
    (1 : Word).toInt * (enc (-1)).toInt < 0 ∧ (lowest.toInt = -2 ^ 127 ∧ lowest.toInt = -2 ^ 127) ∧
    (0 ≤ lowest.toInt * (enc (-2 ^ 127 + 1)).toInt ∧ ¬(lowest.toInt = -2 ^ 127 ∧ (enc (-2 ^ 127 + 1)).toInt = -2 ^ 127)) ∧
    (0 ≤ (0 : Word).toInt * (enc (-1)).toInt ∧ ¬((0 : Word).toInt = -2 ^ 127 ∧ (enc (-1)).toInt = -2 ^ 127)) := by
  decide +kernel

/-- `MUL`: `2^126` times -2.0 is just inside and times 2.0 just outside. -/
theorem witness_MulResult :
    Representable ⌊(((enc (2 ^ 126)).toInt : ℚ) * (fx (-2)).toInt) / 2 ^ 64⌋ ∧
    ¬Representable ⌊(((enc (2 ^ 126)).toInt : ℚ) * (fx 2).toInt) / 2 ^ 64⌋ := by
  rw [show (enc (2 ^ 126)).toInt = 2 ^ 126 from by decide +kernel, show (fx 2).toInt = 2 ^ 65 from by decide +kernel,
    show (fx (-2)).toInt = -2 ^ 65 from by decide +kernel]
  norm_num [Representable]

/-- `DIV`: `MIN_RAW` by 1.0 is just inside and by -1.0 just outside; and a divisor of 0. -/
theorem witness_DivResult :
    (0 : Word).toInt = 0 ∧ (fx 1).toInt ≠ 0 ∧ (fx (-1)).toInt ≠ 0 ∧
    Representable ⌊((lowest.toInt : ℚ) * 2 ^ 64) / (fx 1).toInt⌋ ∧
    ¬Representable ⌊((lowest.toInt : ℚ) * 2 ^ 64) / (fx (-1)).toInt⌋ := by
  rw [show lowest.toInt = -2 ^ 127 from by decide +kernel, show (fx 1).toInt = 2 ^ 64 from by decide +kernel,
    show (fx (-1)).toInt = -2 ^ 64 from by decide +kernel, show (0 : Word).toInt = 0 from by decide]
  norm_num [Representable]

/-- The round trip: `-2^63 = -2^62 * 2` and `2^63 - 1 = (2^63 - 1) * 1` are the ends of the integers. -/
theorem witness_MulDivRoundTrip :
    (unitWith (fx (-2 ^ 62)) (fx 2)).a.toInt = -2 ^ 62 * 2 ^ 64 ∧ (unitWith (fx (-2 ^ 62)) (fx 2)).b.toInt = 2 * 2 ^ 64 ∧
    -2 ^ 63 ≤ (-2 ^ 62 * 2 : Int) ∧ (fx (2 ^ 63 - 1)).toInt = (2 ^ 63 - 1) * 2 ^ 64 ∧
    ((2 ^ 63 - 1) * 1 : Int) ≤ 2 ^ 63 - 1 := by decide +kernel

/-- `SHIFT`: 1.0 by 62 is just inside and by 63 just outside; a count of 0 and of -1; the ends of the counts. -/
theorem witness_ShiftResult :
    (0 ≤ (62 : Word).toInt ∧ Representable ((fx 1).toInt * 2 ^ (62 : Word).toInt.toNat)) ∧
    (0 ≤ (63 : Word).toInt ∧ ¬Representable ((fx 1).toInt * 2 ^ (63 : Word).toInt.toNat)) ∧
    (0 ≤ (0 : Word).toInt ∧ Representable (lowest.toInt * 2 ^ (0 : Word).toInt.toNat)) ∧
    (enc (-1)).toInt < 0 ∧ lowest.toInt < 0 ∧ 0 ≤ highest.toInt := by decide +kernel

/-- `POW` on integers: `(-2)^63` and `(-2)^64`; the small bases and exponents. -/
theorem witness_pow_cases :
    (fx (-2)).toInt = -2 * 2 ^ 64 ∧ (-2 ^ 63 ≤ (-2 : Int) ^ (63 : Word).toNat ∧ (-2 : Int) ^ (63 : Word).toNat ≤ 2 ^ 63 - 1) ∧
    2 ^ 63 - 1 < (-2 : Int) ^ (64 : Word).toNat ∧ (-3 : Int) ^ (63 : Word).toNat < -2 ^ 63 ∧
    fx 1 = 0x00000000000000010000000000000000 ∧ fx (-1) = 0xFFFFFFFFFFFFFFFF0000000000000000 ∧
    (unitWith 0 1).a = 0 ∧ (unitWith 0 1).b ≠ 0 ∧ (unitWith 0 1).b = 1 ∧ (unitWith lowest 0).b = 0 ∧
    |(enc (2 ^ 64)).toInt| ≤ 2 ^ 64 ∧ |(enc (-2 ^ 64)).toInt| ≤ 2 ^ 64 := by decide +kernel

/-- `SQRT` and `LOG2`: both sides of 0; and a power of two. -/
theorem witness_root_log_cases :
    (enc (-1)).toInt < 0 ∧ 0 ≤ (enc 0).toInt ∧ (enc 0).toInt ≤ 0 ∧ 0 < (enc 1).toInt ∧ (enc 1).toInt = 2 ^ 0 ∧
    (enc (2 ^ 126)).toInt = 2 ^ 126 := by decide +kernel

/-- R92: an operand and a partial root that meet the loop's invariant, and operands of `SQRT` and `GAVG`. -/
theorem witness_IsqrtReferenceIsTheFloorRoot :
    9 < 2 ^ (2 * 2) ∧ (2 * 2 ≤ 9 ∧ 9 < (2 + 2 ^ 1) * (2 + 2 ^ 1)) ∧ 0 ≤ highest.toInt ∧ 0 ≤ lowest.toInt * lowest.toInt := by
  decide +kernel

/-- `EXP2`: the ends of the domain, the first operands outside, and a fraction of 0. -/
theorem witness_exp2_domain :
    (-63 * 2 ^ 64 ≤ (fx (-63)).toInt ∧ (fx (-63)).toInt < 63 * 2 ^ 64) ∧
    (enc (63 * 2 ^ 64 - 1)).toInt < 63 * 2 ^ 64 ∧ (enc (-63 * 2 ^ 64 - 1)).toInt < -63 * 2 ^ 64 ∧
    63 * 2 ^ 64 ≤ (fx 63).toInt ∧ (fx (-63)).toInt = -63 * 2 ^ 64 + (0 : Nat) := by decide +kernel

/-- `EXP`: the first operands outside the interval of R102. -/
theorem witness_ExpResult :
    ((0xFFFFFFFFFFFFFFD454EC1A035DF10EAB#128).toInt ≤ (fx 0).toInt ∧
      (fx 0).toInt ≤ (0x000000000000002BAB13E5FCA20EF155#128).toInt) ∧
    (0xFFFFFFFFFFFFFFD454EC1A035DF10EAA#128).toInt < (0xFFFFFFFFFFFFFFD454EC1A035DF10EAB#128).toInt ∧
    (0x000000000000002BAB13E5FCA20EF155#128).toInt < (0x000000000000002BAB13E5FCA20EF156#128).toInt := by decide +kernel

theorem witness_RomHoldsTheRealConstants : 1 ≤ 64 ∧ 64 ≤ 64 := by decide

theorem witness_CallSequencesApplyTheOperation : Instr.shift.isExec = true := by decide

end Sys2Proof.Tests
end

/-! PROOF. The obligations on the unit's registers (spec/10_state.md): the invariant of `ST` and the response, the history
that `ST.RV` records, what an `EXEC` commits, and which commands write which register. -/

namespace Sys2Proof.Proofs

open Sys2Proof Sys2Proof.Machine Sys2Proof.Laws

/-! ### A step on a pending command -/

/-- A step takes a pending command and runs its instruction, or takes the error of an illegal word (R35, R50, R128). -/
theorem step_of_command {s : State} {c : Command} {rest : List Input} (h : s.inputs = .command c :: rest) :
    (∃ i, decode c = .ok i ∧ step s = exec i (takenInput rest s)) ∨
    (∃ e, decode c = .error e ∧ step s = .next (failState 5 (takenInput rest s))) := by
  rcases step_cases s with
    ⟨h', _⟩ | ⟨p, rest', h', _⟩ | ⟨c', i, rest', h', hd, hs⟩ | ⟨c', e, rest', h', hd, hs⟩ <;> cases h.symm.trans h'
  · exact .inl ⟨i, hd, hs⟩
  · exact .inr ⟨e, hd, hs⟩

/-! ### What the decoder says of a command -/

/-- A command word that decodes to no instruction is in the ranges R44 lists. -/
theorem illegalWordRange_of_decode_error {c : Command} {e : DecodeError} (h : decode c = .error e) :
    illegalWordRange c.cw.toNat = true := by
  have hlt : c.cw.toNat < 256 := c.cw.isLt
  unfold decode at h
  split at h
  case h_23 =>
    simp only [illegalWordRange, decide_eq_true_eq, imp_false] at *
    omega
  all_goals cases h

/-- The operand of a decoded `WRA` is the command's `DIN` (R51). -/
theorem din_of_decode_wra {c : Command} {din : Word} (h : decode c = .ok (.wra din)) : din = c.din := by
  unfold decode at h
  split at h <;> cases h
  rfl

/-- The operand of a decoded `WRB` is the command's `DIN` (R52). -/
theorem din_of_decode_wrb {c : Command} {din : Word} (h : decode c = .ok (.wrb din)) : din = c.din := by
  unfold decode at h
  split at h <;> cases h
  rfl

/-! ### The invariant of `ST` and the response -/

/-- The code of a failed operation is one of 1 to 4, so at most 5 and never 0 (R120). -/
theorem failCode_bounds (k : FailKind) : k.code.toNat ≤ 5 ∧ k.code ≠ 0 := by
  cases k <;> decide

/-- The states a command may leave without touching `ST`: it answers 0, so nothing is asked of the data. -/
theorem inv_answer {s : State} (h : s.st.Legal) (dout : Word) : (answer dout s).Inv := by
  refine ⟨h, ?_⟩
  rintro p ⟨⟩
  exact ⟨Nat.zero_le 5, fun hne => absurd rfl hne⟩

/-- A success leaves `ST = 0x08` and answers 0 (R55). -/
theorem inv_okState (v : Word) (s : State) : (okState v s).Inv := by
  refine ⟨⟨Nat.zero_le 5, fun _ => rfl⟩, ?_⟩
  rintro p ⟨⟩
  exact ⟨Nat.zero_le 5, fun hne => absurd rfl hne⟩

/-- A failure with one of the codes of R120 leaves that code in `ST` and in the response, with data 0 (R122, R128). -/
theorem inv_failState {code : ErrorCode} (h : code.toNat ≤ 5) (s : State) : (failState code s).Inv := by
  refine ⟨⟨h, fun hrv => absurd hrv Bool.false_ne_true⟩, ?_⟩
  rintro p ⟨⟩
  exact ⟨h, fun _ => ⟨rfl, rfl⟩⟩

/-- Every state whose `ST` is clear and that holds no response has the invariant, as after a reset (R27, R140). -/
theorem inv_of_cleared {s : State} (hst : s.st = ⟨0, false⟩) (hrsp : s.rsp = none) : s.Inv := by
  refine ⟨by rw [hst]; exact ⟨by decide, fun _ => rfl⟩, ?_⟩
  rw [hrsp]
  rintro p ⟨⟩

/-- Committing any outcome leaves the invariant, whatever the state held before (R55, R122). -/
theorem inv_commitResult (res : Result) (s : State) : (commitResult res s).Inv := by
  cases res with
  | ok v => exact inv_okState v s
  | fail k => exact inv_failState (failCode_bounds k).1 s

/-- Every instruction leaves the invariant when `ST` was legal. -/
theorem exec_inv {i : Instr} {s t : State} (h : s.st.Legal) (ht : exec i s = .next t) : t.Inv := by
  rcases exec_cases i s with ⟨din, _, he⟩ | ⟨din, _, he⟩ | ⟨_, he⟩ | ⟨_, he⟩ | ⟨_, he⟩ <;> cases he.symm.trans ht
  case inr.inr.inr.inr => exact inv_commitResult _ s
  all_goals exact inv_answer h _

/-- Settles O10: the invariant holds after each kind of step. -/
theorem everyStepKeepsTheInvariant : Obligations.EveryStepKeepsTheInvariant := by
  rintro s t ⟨hst, hrsp⟩ ht
  rcases step_cases s with ⟨_, hs⟩ | ⟨p, rest, _, hs⟩ | ⟨c, i, rest, _, _, hs⟩ | ⟨c, e, rest, _, _, hs⟩ <;>
    rw [hs] at ht
  case inl =>
    cases ht
    exact ⟨hst, hrsp⟩
  case inr.inl =>
    cases ht
    exact inv_of_cleared rfl rfl
  case inr.inr.inl => exact exec_inv (s := takenInput rest s) hst ht
  case inr.inr.inr =>
    cases ht
    exact inv_failState (by decide) _

/-- Settles O11. -/
theorem resetHasTheInvariant : Obligations.ResetHasTheInvariant :=
  ⟨inv_of_cleared rfl rfl, by decide, rfl⟩

/-! ### What an `EXEC` commits -/

/-- Settles O13: the function is `opFunction` of the instruction. -/
theorem execCommitsAFunctionOfItsOperands : Obligations.ExecCommitsAFunctionOfItsOperands := by
  intro i hi
  refine ⟨opFunction i, fun s => ?_⟩
  rw [exec_of_isExec hi]
  cases opFunction i s.a s.b with
  | ok v => rfl
  | fail k => cases k <;> rfl

/-! ### The writers of each register -/

/-- Settles O14: by the instruction the command decodes to, or the error it takes. -/
theorem registersHaveTheirWriters : Obligations.RegistersHaveTheirWriters := by
  intro s t c rest hin ht
  rcases step_of_command hin with ⟨i, hd, hs⟩ | ⟨e, hd, hs⟩
  · rw [hs] at ht
    rcases exec_cases i (takenInput rest s) with
      ⟨din, rfl, he⟩ | ⟨din, rfl, he⟩ | ⟨_, he⟩ | ⟨_, he⟩ | ⟨hi, he⟩ <;> cases he.symm.trans ht
    · cases din_of_decode_wra hd
      simp [hd]
    · cases din_of_decode_wrb hd
      simp [hd]
    · simp
    · simp
    · rcases commitResult_cases (opFunction i s.a s.b) (takenInput rest s) with ⟨v, _, hc⟩ | ⟨k, _, hc⟩
      · simp [hc, hd, hi]
      · simp [hc, hd, hi]
  · cases hs.symm.trans ht
    simp [illegalWordRange_of_decode_error hd]

/-! ### The history that `ST.RV` records -/

/-- The command is an `EXEC` (R55). -/
def IsExecCommand (c : Command) : Prop := ∃ i, decode c = .ok i ∧ i.isExec = true

/-- `ST.RV` is 1 exactly when `ST.ERR` is 0 and what `done` says has happened (R17). -/
def RvRecords (done : Prop) (st : Status) : Prop := st.rv = true ↔ st.err = 0 ∧ done

/-- A command that decodes is an `EXEC` exactly when its instruction is. -/
theorem isExecCommand_iff {c : Command} {i : Instr} (hd : decode c = .ok i) : IsExecCommand c ↔ i.isExec = true := by
  simp [IsExecCommand, hd]

/-- A command that does not decode is no `EXEC`. -/
theorem not_isExecCommand_of_error {c : Command} {e : DecodeError} (hd : decode c = .error e) : ¬IsExecCommand c := by
  simp [IsExecCommand, hd]

/-- An interface command changes neither `ST` (R17) nor what is pending. -/
theorem exec_of_not_isExec {i : Instr} (h : i.isExec = false) (s : State) :
    ∃ t, exec i s = .next t ∧ t.st = s.st ∧ t.inputs = s.inputs := by
  rcases exec_cases i s with ⟨din, _, he⟩ | ⟨din, _, he⟩ | ⟨_, he⟩ | ⟨_, he⟩ | ⟨hi, _⟩
  case inr.inr.inr.inr => exact absurd hi (by simp [h])
  all_goals exact ⟨_, he, rfl, rfl⟩

/-- The status an `EXEC` leaves records that an `EXEC` has completed: `RV = 1` with `ERR = 0`, or `RV = 0` with a code. -/
theorem commitResult_records {done : Prop} (h : done) (res : Result) (s : State) :
    RvRecords done (commitResult res s).st := by
  cases res with
  | ok v => simp [RvRecords, h]
  | fail k => exact ⟨fun hrv => absurd hrv Bool.false_ne_true, fun hst => absurd hst.1 (failCode_bounds k).2⟩

/-- The status an `EXEC` leaves does not depend on the status it finds (R17). -/
theorem commitResult_st_congr (res : Result) (s s' : State) : (commitResult res s).st = (commitResult res s').st := by
  cases res <;> rfl

/-- One command keeps the record of `ST.RV`, and adds itself to it when it is an `EXEC`. -/
theorem step_records {s : State} {c : Command} {rest : List Input} {done : Prop}
    (hin : s.inputs = .command c :: rest) (h : RvRecords done s.st) :
    ∃ t, step s = .next t ∧ t.inputs = rest ∧ RvRecords (done ∨ IsExecCommand c) t.st := by
  rcases step_of_command hin with ⟨i, hd, hs⟩ | ⟨e, hd, hs⟩
  · rw [hs, isExecCommand_iff hd]
    cases hi : i.isExec with
    | true => exact ⟨_, exec_of_isExec hi _, by simp, commitResult_records (.inr rfl) _ _⟩
    | false =>
      obtain ⟨t, ht, hst, hinputs⟩ := exec_of_not_isExec hi (takenInput rest s)
      exact ⟨t, ht, hinputs, by simpa [hst] using h⟩
  · exact ⟨_, hs, rfl, by simp [RvRecords]⟩

/-- A run over commands alone keeps the record of `ST.RV`, by induction on the commands. -/
theorem runSteps_records (commands : List Command) : ∀ (s : State) (done : Prop),
    s.inputs = commands.map Input.command → RvRecords done s.st →
      ∃ t, runSteps commands.length s = .next t ∧ RvRecords (done ∨ ∃ c ∈ commands, IsExecCommand c) t.st := by
  induction commands with
  | nil =>
    intro s done _ h
    exact ⟨s, rfl, by simpa using h⟩
  | cons c commands ih =>
    intro s done hin h
    obtain ⟨t, hstep, ht, hrec⟩ := step_records hin h
    obtain ⟨u, hrun, hu⟩ := ih t _ ht hrec
    exact ⟨u, by rw [List.length_cons, runSteps_succ hstep, hrun], by simpa [or_assoc] using hu⟩

/-- Settles O12: the run from a cleared `ST`, where no `EXEC` has completed; and the two kinds of command. -/
theorem resultValidHistory : Obligations.ResultValidHistory := by
  refine ⟨fun s commands hst hin => ?_, fun i s st hi => ?_, fun i s hi => ?_⟩
  · have hcleared : RvRecords False s.st := by simp [RvRecords, hst]
    obtain ⟨t, hrun, ht⟩ := runSteps_records commands s False hin hcleared
    exact ⟨t, hrun, by simpa only [false_or, RvRecords, IsExecCommand] using ht⟩
  · exact ⟨_, _, exec_of_isExec hi s, exec_of_isExec hi { s with st := st }, commitResult_st_congr _ _ _⟩
  · obtain ⟨t, ht, hst, _⟩ := exec_of_not_isExec hi s
    exact ⟨t, ht, hst⟩

end Sys2Proof.Proofs

/-! PROOF. The digits of the ROM are the floors of the real constants (spec/10_state.md R19 to R21). Each entry of `ROM.T` is
checked by squaring it back to 2 in integer arithmetic that rounds outwards, and `ROM.LOG2E` by the series of `log 2`. -/

namespace Sys2Proof.Proofs

open Sys2Proof Sys2Proof.Machine Sys2Proof.Laws

/-! ### Repeated squaring in fixed point -/

/-- `k` squarings of a number with `p` fraction bits, each rounded up. -/
def squareUp (p : Nat) : Nat → Nat → Nat
  | 0, m => m
  | k + 1, m => squareUp p k (m * m / 2 ^ p + 1)

/-- `k` squarings of a number with `p` fraction bits, each rounded down. -/
def squareDown (p : Nat) : Nat → Nat → Nat
  | 0, m => m
  | k + 1, m => squareDown p k (m * m / 2 ^ p)

/-- One squaring lies between its roundings. -/
theorem square_between (p m : Nat) :
    ((m * m / 2 ^ p : Nat) : ℝ) / 2 ^ p ≤ ((m : ℝ) / 2 ^ p) ^ 2 ∧
      ((m : ℝ) / 2 ^ p) ^ 2 ≤ ((m * m / 2 ^ p + 1 : Nat) : ℝ) / 2 ^ p := by
  have hsq : ((m : ℝ) / 2 ^ p) ^ 2 = ((m * m : Nat) : ℝ) / (2 ^ p : Nat) / 2 ^ p := by
    push_cast
    field_simp
  rw [hsq]
  constructor <;> gcongr
  · exact Nat.cast_div_le
  · have hfloor := Nat.lt_floor_add_one (((m * m : Nat) : ℝ) / (2 ^ p : Nat))
    rw [Nat.floor_div_eq_div] at hfloor
    exact_mod_cast hfloor.le

theorem pow_le_squareUp (p k : Nat) : ∀ m : Nat, ((m : ℝ) / 2 ^ p) ^ 2 ^ k ≤ (squareUp p k m : ℝ) / 2 ^ p := by
  induction k with
  | zero => simp [squareUp]
  | succ k ih =>
    intro m
    calc ((m : ℝ) / 2 ^ p) ^ 2 ^ (k + 1) = (((m : ℝ) / 2 ^ p) ^ 2) ^ 2 ^ k := by rw [← pow_mul, pow_succ']
      _ ≤ (((m * m / 2 ^ p + 1 : Nat) : ℝ) / 2 ^ p) ^ 2 ^ k := by
        gcongr
        exact (square_between p m).2
      _ ≤ (squareUp p (k + 1) m : ℝ) / 2 ^ p := ih _

theorem squareDown_le_pow (p k : Nat) : ∀ m : Nat, (squareDown p k m : ℝ) / 2 ^ p ≤ ((m : ℝ) / 2 ^ p) ^ 2 ^ k := by
  induction k with
  | zero => simp [squareDown]
  | succ k ih =>
    intro m
    calc (squareDown p (k + 1) m : ℝ) / 2 ^ p ≤ (((m * m / 2 ^ p : Nat) : ℝ) / 2 ^ p) ^ 2 ^ k := ih _
      _ ≤ (((m : ℝ) / 2 ^ p) ^ 2) ^ 2 ^ k := by
        gcongr
        exact (square_between p m).1
      _ = ((m : ℝ) / 2 ^ p) ^ 2 ^ (k + 1) := by rw [← pow_mul, pow_succ']

/-! ### The entries of `ROM.T` -/

/-- The fraction bits of the check: 33 more than an entry has, against the roundings of 64 squarings. -/
def checkBits : Nat := 160

/-- The entry `n` squared back `i` times, rounded up, is at most 2, and the next number, rounded down, is above 2. -/
abbrev SquaresBackToTwo (i n : Nat) : Prop :=
  squareUp checkBits i (n * 2 ^ 33) ≤ 2 * 2 ^ checkBits ∧ 2 * 2 ^ checkBits < squareDown checkBits i ((n + 1) * 2 ^ 33)

/-- The `2^i`-th root of 2, to the power `2^i`. -/
theorem rootOfTwo_pow (i : Nat) : ((2 : ℝ) ^ ((1 : ℝ) / 2 ^ i)) ^ 2 ^ i = 2 := by
  have h := Real.rpow_inv_natCast_pow (x := 2) (n := 2 ^ i) (by norm_num) (by positivity)
  simpa using h

/-- What the check says of the real root: the entry is its floor. -/
theorem floor_of_squaresBackToTwo {i n : Nat} (h : SquaresBackToTwo i n) :
    n = ⌊(2 : ℝ) ^ ((1 : ℝ) / 2 ^ i) * 2 ^ 127⌋₊ := by
  obtain ⟨hup, hdown⟩ := h
  set x : ℝ := (2 : ℝ) ^ ((1 : ℝ) / 2 ^ i) with hx
  have hpow : x ^ 2 ^ i = 2 := rootOfTwo_pow i
  have hx0 : 0 ≤ x := by positivity
  have hscale (m : Nat) : ((m * 2 ^ 33 : Nat) : ℝ) / 2 ^ checkBits = (m : ℝ) / 2 ^ 127 := by
    rw [checkBits]
    push_cast
    ring
  have hlow : (n : ℝ) / 2 ^ 127 ≤ x := by
    refine le_of_pow_le_pow_left₀ (n := 2 ^ i) (by positivity) hx0 ?_
    calc ((n : ℝ) / 2 ^ 127) ^ 2 ^ i ≤ (squareUp checkBits i (n * 2 ^ 33) : ℝ) / 2 ^ checkBits := by
          rw [← hscale]
          exact pow_le_squareUp checkBits i _
      _ ≤ x ^ 2 ^ i := by
          rw [hpow, div_le_iff₀ (by positivity)]
          exact_mod_cast hup
  have hhigh : x < ((n + 1 : Nat) : ℝ) / 2 ^ 127 := by
    refine lt_of_pow_lt_pow_left₀ (2 ^ i) (by positivity) ?_
    calc x ^ 2 ^ i < (squareDown checkBits i ((n + 1) * 2 ^ 33) : ℝ) / 2 ^ checkBits := by
          rw [hpow, lt_div_iff₀ (by positivity)]
          exact_mod_cast hdown
      _ ≤ (((n + 1 : Nat) : ℝ) / 2 ^ 127) ^ 2 ^ i := by
          rw [← hscale]
          exact squareDown_le_pow checkBits i _
  symm
  rw [Nat.floor_eq_iff (by positivity)]
  constructor
  · exact (div_le_iff₀ (by positivity)).1 hlow
  · exact_mod_cast (lt_div_iff₀ (by positivity)).1 hhigh

/-- Every entry of the table passes the check. -/
theorem romT_squaresBackToTwo {i : Nat} (h1 : 1 ≤ i) (h2 : i ≤ 64) : SquaresBackToTwo i (Rom.t i).toNat := by
  have h : ∀ i ∈ List.range' 1 64, SquaresBackToTwo i (Rom.t i).toNat := by decide +kernel
  exact h i (by simp; omega)

/-- A word at least `2^127` has bit 127 set. -/
theorem getLsbD_127_of_ge {v : Word} (h : 2 ^ 127 ≤ v.toNat) : v.getLsbD 127 = true := by
  have hmsb := BitVec.msb_eq_decide v
  rw [BitVec.msb_eq_getLsbD_last] at hmsb
  rw [hmsb]
  exact decide_eq_true h

/-! ### `ROM.LOG2E` -/

/-- The first 22 terms of `log 2 / 2 = artanh (1/3)`. -/
def halfLogTwoSum : ℚ := ∑ i ∈ Finset.range 22, (1 / 3) ^ (2 * i + 1) / (2 * i + 1)

/-- `log 2` lies between the sum of those terms and that sum with the bound of its remainder. -/
theorem log_two_between :
    2 * (halfLogTwoSum : ℝ) ≤ Real.log 2 ∧
      Real.log 2 ≤ 2 * ((halfLogTwoSum : ℝ) + (1 / 3) ^ 45 / (1 - (1 / 3) ^ 2)) := by
  have hlow := Real.sum_range_le_log_div (x := 1 / 3) (by norm_num) (by norm_num) 22
  have hhigh := Real.log_div_le_sum_range_add (x := 1 / 3) (by norm_num) (by norm_num) 22
  have harg : ((1 : ℝ) + 1 / 3) / (1 - 1 / 3) = 2 := by norm_num
  rw [harg] at hlow hhigh
  rw [halfLogTwoSum]
  push_cast
  constructor <;> linarith

/-- `2^64 / log 2` lies between the entry and the next number. -/
theorem log_two_mul_log2e :
    26613026195688644983 * Real.log 2 ≤ 2 ^ 64 ∧ 2 ^ 64 < 26613026195688644984 * Real.log 2 := by
  obtain ⟨hlow, hhigh⟩ := log_two_between
  have hsum : (halfLogTwoSum + (1 / 3) ^ 45 / (1 - (1 / 3) ^ 2)) * (2 * 26613026195688644983) ≤ 2 ^ 64 ∧
      2 ^ 64 < halfLogTwoSum * (2 * 26613026195688644984) := by decide +kernel
  have hsumLow := (Rat.cast_le (K := ℝ)).2 hsum.1
  have hsumHigh := (Rat.cast_lt (K := ℝ)).2 hsum.2
  push_cast at hsumLow hsumHigh
  constructor <;> linarith

/-- `log2(e) * 2^64` floors to the entry (R20). -/
theorem floor_log2e : ⌊Real.logb 2 (Real.exp 1) * 2 ^ 64⌋ = 26613026195688644983 := by
  obtain ⟨hlow, hhigh⟩ := log_two_mul_log2e
  have hpos : 0 < Real.log 2 := Real.log_pos (by norm_num)
  have hlogb : Real.logb 2 (Real.exp 1) * 2 ^ 64 = 2 ^ 64 / Real.log 2 := by
    rw [Real.logb, Real.log_exp, one_div_mul_eq_div]
  rw [hlogb, Int.floor_eq_iff, le_div_iff₀ hpos, div_lt_iff₀ hpos]
  push_cast
  constructor <;> linarith

/-- Settles O44. -/
theorem romHoldsTheRealConstants : Obligations.RomHoldsTheRealConstants := by
  have hlog2e : Rom.log2e.toInt = 26613026195688644983 := by decide
  refine ⟨by decide, hlog2e.trans floor_log2e.symm, hlog2e, fun i h1 h2 => ?_⟩
  exact ⟨floor_of_squaresBackToTwo (romT_squaresBackToTwo h1 h2), getLsbD_127_of_ge (romT_ge h1 h2)⟩

end Sys2Proof.Proofs

/-! PROOF. The obligations on the order of commands (spec/20_memory.md): a step performs the oldest input and leaves the rest
of the list alone, so a run does not depend on what is issued after it (R35); and a command is idempotent (R34). -/

namespace Sys2Proof.Proofs

open Sys2Proof Sys2Proof.Machine Sys2Proof.Laws

/-! ### Idempotence -/

/-- Committing the same outcome again changes nothing more (R34, R55). -/
@[simp] theorem commitResult_idem (res : Result) (s : State) :
    commitResult res (commitResult res s) = commitResult res s := by
  cases res <;> rfl

/-- Settles O15: an interface command writes again what it wrote, and an `EXEC` finds its operands unchanged (R18) and so
commits the same outcome. -/
theorem repeatedCommandsChangeNothingMore : Obligations.RepeatedCommandsChangeNothingMore := by
  intro i s t ht
  rcases exec_cases i s with ⟨din, rfl, he⟩ | ⟨din, rfl, he⟩ | ⟨rfl, he⟩ | ⟨rfl, he⟩ | ⟨hi, he⟩ <;>
    cases he.symm.trans ht
  case inr.inr.inr.inr => rw [exec_of_isExec hi, commitResult_a, commitResult_b, commitResult_idem]
  all_goals rfl

/-! ### One step and the inputs behind it -/

/-- A step with a legal command pending runs the decoded instruction on the rest of the list (R35, R50). -/
theorem step_of_decode_ok {s : State} {c : Command} {rest : List Input} {i : Instr}
    (hin : s.inputs = .command c :: rest) (hd : decode c = .ok i) : step s = exec i (takenInput rest s) := by
  rcases step_of_command hin with ⟨i', hd', hs⟩ | ⟨e, hd', _⟩ <;> cases hd.symm.trans hd'
  exact hs

/-- A step with an illegal command pending takes the error of R128. -/
theorem step_of_decode_error {s : State} {c : Command} {rest : List Input} {e : DecodeError}
    (hin : s.inputs = .command c :: rest) (hd : decode c = .error e) :
    step s = .next (failState 5 (takenInput rest s)) := by
  rcases step_of_command hin with ⟨i, hd', _⟩ | ⟨e', hd', hs⟩ <;> cases hd.symm.trans hd'
  exact hs

/-- Settles O6. -/
theorem stepRunsTheDecodedCommand : Obligations.StepRunsTheDecodedCommand :=
  fun _ _ _ _ hin hd => step_of_decode_ok hin hd

/-- Committing an outcome neither reads nor writes the list of inputs. -/
theorem commitResult_takenInput (res : Result) (rest : List Input) (s : State) :
    commitResult res (takenInput rest s) = takenInput rest (commitResult res s) := by
  cases res <;> rfl

/-- An instruction completes, and neither reads nor writes the list of inputs. -/
theorem exec_takenInput (i : Instr) (s : State) :
    ∃ t, exec i s = .next t ∧ ∀ rest, exec i (takenInput rest s) = .next (takenInput rest t) := by
  rcases exec_cases i s with ⟨din, rfl, he⟩ | ⟨din, rfl, he⟩ | ⟨rfl, he⟩ | ⟨rfl, he⟩ | ⟨hi, he⟩
  case inr.inr.inr.inr =>
    exact ⟨_, he, fun rest => by rw [exec_of_isExec hi, commitResult_takenInput, takenInput_a, takenInput_b]⟩
  all_goals exact ⟨_, he, fun _ => rfl⟩

/-- A reset neither reads nor writes the list of inputs. -/
theorem takeReset_takenInput (p : Option Command) (rest : List Input) (s : State) :
    takeReset p (takenInput rest s) = takenInput rest (takeReset p s) := rfl

/-- What a step makes of the oldest input is the same whatever stands behind it, and what stands behind it stays (R35). -/
theorem step_takenInput_cons (input : Input) (s : State) :
    ∃ t, ∀ rest, step (takenInput (input :: rest) s) = .next (takenInput rest t) := by
  cases input with
  | reset p => exact ⟨takeReset p s, fun rest => congrArg _ (takeReset_takenInput p rest s)⟩
  | command c =>
    cases hd : decode c with
    | ok i =>
      obtain ⟨t, _, ht⟩ := exec_takenInput i s
      exact ⟨t, fun rest => (step_of_decode_ok rfl hd).trans (ht rest)⟩
    | error e => exact ⟨failState 5 s, fun rest => step_of_decode_error rfl hd⟩

/-! ### Runs -/

/-- The run over some inputs completes with a state that is the same whatever is issued after them, and leaves the later
inputs on the list (R35): by induction on the inputs of the run. -/
theorem runSteps_takenInput_append (earlier : List Input) : ∀ s : State,
    ∃ t, ∀ later, runSteps earlier.length (takenInput (earlier ++ later) s) = .next (takenInput later t) := by
  induction earlier with
  | nil => exact fun s => ⟨s, fun _ => rfl⟩
  | cons input earlier ih =>
    intro s
    obtain ⟨u, hstep⟩ := step_takenInput_cons input s
    obtain ⟨t, hrun⟩ := ih u
    exact ⟨t, fun later => (runSteps_succ (hstep (earlier ++ later)) _).trans (hrun later)⟩

/-- Settles O9: the run with nothing issued later and the run with `later` issued meet in the same state. -/
theorem laterInputsDoNotReachBack : Obligations.LaterInputsDoNotReachBack := by
  intro earlier later s t ht
  obtain ⟨u, hrun⟩ := runSteps_takenInput_append earlier s
  have halone : runSteps earlier.length (takenInput earlier s) = .next (takenInput [] u) := by
    simpa only [List.append_nil] using hrun []
  cases halone.symm.trans ht
  exact ⟨rfl, hrun later⟩

end Sys2Proof.Proofs

/-! PROOF. The obligations on the encoding (spec/30_encoding.md): the decoder and the encoder are inverse to each other, the
legal command words are those R44 does not list, and the host's sequences of R46 do what they are named for. -/

namespace Sys2Proof.Proofs

open Sys2Proof Sys2Proof.Machine Sys2Proof.Laws

/-! ### From an instruction to its bits and back -/

/-- The decoder is a left inverse of the encoder. -/
@[simp] theorem decode_encode (i : Instr) : decode (encode i) = .ok i := by
  cases i <;> rfl

/-- The bits of a command are 136 (R40). -/
theorem toBits_lt (c : Command) : c.toBits < 2 ^ 136 := by
  have hcw : c.cw.toNat < 2 ^ 8 := c.cw.isLt
  have hdin : c.din.toNat < 2 ^ 128 := c.din.isLt
  unfold Command.toBits
  omega

/-- A command is read back from its bits: `CW` is their remainder by `2^8`, `DIN` their quotient (log entry 13). -/
@[simp] theorem ofBits_toBits (c : Command) : Command.ofBits 136 c.toBits = c := by
  have hcw : c.toBits % 2 ^ 8 = c.cw.toNat := by
    rw [Command.toBits, Nat.add_mul_mod_self_left, Nat.mod_eq_of_lt c.cw.isLt]
  have hdin : c.toBits / 2 ^ 8 = c.din.toNat := by
    rw [Command.toBits, Nat.add_mul_div_left _ _ (by decide), Nat.div_eq_of_lt c.cw.isLt, Nat.zero_add]
  have hcw' : BitVec.ofNat 8 c.toBits = c.cw := BitVec.eq_of_toNat_eq hcw
  rw [Command.ofBits, Nat.mod_eq_of_lt (toBits_lt c), hcw', hdin, BitVec.ofNat_toNat, BitVec.setWidth_eq]

/-- What a command decodes to is what its bits decode to. -/
theorem decodeTableWord_toBits {c : Command} {i : Instr} (h : decode c = .ok i) :
    decodeTableWord 136 c.toBits = some i := by
  rw [decodeTableWord, ofBits_toBits, h]

/-- Settles O1: the command decodes back, and its bits are those of the command. -/
theorem encodedInstructionsDecodeBack : Obligations.EncodedInstructionsDecodeBack :=
  fun i _ => ⟨decode_encode i, decodeTableWord_toBits (decode_encode i)⟩

/-! ### From a command to its instruction and back -/

/-- A decoded instruction encodes to the command it was decoded from, the ignored `DIN` apart (R43, R45): in each row of the
opcode map the command word is the row's own number. -/
theorem encode_of_decode_ok {c : Command} {i : Instr} (h : decode c = .ok i) :
    encode i = ⟨c.cw, if c.cw = 0x01 ∨ c.cw = 0x02 then c.din else 0⟩ := by
  obtain ⟨cw, din⟩ := c
  have hcw : cw = BitVec.ofNat 8 cw.toNat := by rw [BitVec.ofNat_toNat, BitVec.setWidth_eq]
  unfold decode at h
  split at h <;> cases h
  all_goals
    next hrow =>
      rw [hrow] at hcw
      subst hcw
      rfl

/-- The only refusal of the decoder names the command word (R44). -/
theorem decode_error_eq {c : Command} {e : DecodeError} (h : decode c = .error e) :
    decode c = .error (.illegalCommand c.cw) := by
  rw [h]
  unfold decode at h
  split at h <;> cases h
  rfl

/-! ### The legal command words -/

/-- `GRP` is the quotient by 16 (R40). -/
theorem grp_eq_div (cw : CommandWord) : CommandWord.grp cw = cw.toNat / 16 := by
  have hlt : cw.toNat < 256 := cw.isLt
  rw [CommandWord.grp, BitVec.extractLsb'_toNat, Nat.shiftRight_eq_div_pow]
  omega

/-- `IDX` is the remainder by 16 (R40). -/
theorem idx_eq_mod (cw : CommandWord) : CommandWord.idx cw = cw.toNat % 16 := by
  rw [CommandWord.idx, BitVec.extractLsb'_toNat, Nat.shiftRight_zero]

/-- The words R44 lists are those that are not legal by group and index: compared group by group. -/
theorem legalCommandWord_eq_not_illegalWordRange (cw : CommandWord) :
    legalCommandWord cw = !illegalWordRange cw.toNat := by
  have hlt : cw.toNat < 256 := cw.isLt
  unfold legalCommandWord illegalWordRange
  rw [grp_eq_div, idx_eq_mod, ← decide_not]
  split
  case h_6 =>
    simp only [imp_false] at *
    exact (decide_eq_false (by omega)).symm
  all_goals exact decide_eq_decide.mpr (by omega)

/-- Every instruction has a legal command word (R43). -/
theorem legalCommandWord_encode (i : Instr) : legalCommandWord (encode i).cw = true := by
  cases i with
  | wra din => exact (EncodingIsLegal.wra din).1
  | wrb din => exact (EncodingIsLegal.wrb din).1
  | _ => rfl

/-- A command decodes exactly when its command word is legal by group and index: a decoded command has the command word of
an instruction, and a refused one is in the ranges of R44. -/
theorem exists_decode_ok_iff_wellFormed (c : Command) : (∃ i, decode c = .ok i) ↔ c.wellFormed = true := by
  constructor
  · rintro ⟨i, hd⟩
    have hlegal := legalCommandWord_encode i
    rwa [encode_of_decode_ok hd] at hlegal
  · intro hwf
    cases hd : decode c with
    | ok i => exact ⟨i, rfl⟩
    | error e =>
      rw [Command.wellFormed, legalCommandWord_eq_not_illegalWordRange, illegalWordRange_of_decode_error hd] at hwf
      cases hwf

/-- An ill-formed command is refused by the name of its command word (R44). -/
theorem decode_of_not_wellFormed {c : Command} (h : c.wellFormed = false) :
    decode c = .error (.illegalCommand c.cw) := by
  cases hd : decode c with
  | ok i => cases h.symm.trans ((exists_decode_ok_iff_wellFormed c).mp ⟨i, hd⟩)
  | error e => rw [← hd, decode_error_eq hd]

/-- Settles O2. -/
theorem decodedCommandsAreTheLegalOnes : Obligations.DecodedCommandsAreTheLegalOnes := by
  refine fun c => ⟨exists_decode_ok_iff_wellFormed c, decode_of_not_wellFormed, fun i hd => ?_⟩
  rw [encode_of_decode_ok hd]
  exact ⟨rfl, rfl⟩

/-- Settles O4: the listed words are the ill-formed ones, and these the decoder refuses. -/
theorem illegalCommandWordsTakeTheirError : Obligations.IllegalCommandWordsTakeTheirError := by
  refine ⟨by decide +kernel, fun c s rest hin => ?_⟩
  have hwf : c.wellFormed = !illegalWordRange c.cw.toNat := legalCommandWord_eq_not_illegalWordRange c.cw
  constructor
  · intro hlisted
    rw [hlisted] at hwf
    exact step_of_decode_error hin (decode_of_not_wellFormed hwf)
  · intro hunlisted
    rw [hunlisted] at hwf
    exact (exists_decode_ok_iff_wellFormed c).mpr hwf

/-- Settles O3: each word is the encoding of its instruction. -/
theorem writtenOutCommandWordsDecode : Obligations.WrittenOutCommandWordsDecode :=
  ⟨decode_encode (.wrb 0x5), decode_encode .fromuint, decode_encode .shift, decode_encode .sqrt, decode_encode .exp⟩

/-! ### The lines of a host sequence -/

@[simp] theorem runLines_nil (s : State) (last : Option Word) : runLines [] s last = some (s, last) := rfl

/-- An encoded instruction that the host issues is what the next step runs. -/
theorem step_issueNext_encode (i : Instr) (s : State) : step (issueNext (encode i) s) = exec i s :=
  step_of_decode_ok rfl (decode_encode i)

/-- A line that stands for an instruction is answered by that instruction, and the next line finds its answer (R45). -/
theorem runLines_cons {line : Line} {i : Instr} {s t : State} {last : Option Word}
    (hline : line.command last = some (encode i)) (ht : exec i s = .next t) (lines : List Line) :
    runLines (line :: lines) s last = runLines lines t (lastReadAfter (encode i) t last) := by
  rw [runLines, hline]
  simp only [step_issueNext_encode, ht]

/-- A `WRA` line writes the value of its operand to `A` (R45, R51). -/
theorem runLines_wra {d : Datum} {v : Word} {last : Option Word} (hv : d.value last = some v) (lines : List Line)
    (s : State) : runLines (.wra d :: lines) s last = runLines lines (answer 0 { s with a := v }) last :=
  runLines_cons (i := .wra v) (by rw [Line.command, hv, Option.map_some]) rfl lines

/-- A `WRB` line writes the value of its operand to `B` (R45, R52). -/
theorem runLines_wrb {d : Datum} {v : Word} {last : Option Word} (hv : d.value last = some v) (lines : List Line)
    (s : State) : runLines (.wrb d :: lines) s last = runLines lines (answer 0 { s with b := v }) last :=
  runLines_cons (i := .wrb v) (by rw [Line.command, hv, Option.map_some]) rfl lines

/-- An `RDR` line answers `R`, and `$` is that answer from then on (R45, R53). -/
theorem runLines_rdr (lines : List Line) (s : State) (last : Option Word) :
    runLines (.plain .rdr :: lines) s last = runLines lines (answer s.r s) (some s.r) :=
  runLines_cons (i := .rdr) rfl rfl lines

/-- Only `RDR` changes what `$` stands for (R45). -/
theorem lastReadAfter_of_isExec {op : Instr} (h : op.isExec = true) (t : State) (last : Option Word) :
    lastReadAfter (encode op) t last = last := by
  rw [lastReadAfter, decode_encode]
  split
  next hrdr =>
    cases hrdr
    cases h
  next => rfl

/-! ### Calls and moves -/

/-- What the unit answered before does not matter to an `EXEC` (R55). -/
theorem exec_answer_of_isExec {op : Instr} (h : op.isExec = true) (dout : Word) (s : State) :
    exec op (answer dout s) = exec op s := by
  rw [exec_of_isExec h, exec_of_isExec h, answer_a, answer_b]
  cases opFunction op s.a s.b <;> rfl

/-- The common end of `CALL1` and `CALL2`: once the operands are written, the operation runs on them and `R` is read. -/
theorem runLines_exec_rdr {op : Instr} (h : op.isExec = true) {s t : State} (ht : exec op s = .next t) (dout : Word)
    (last : Option Word) :
    runLines [.plain op, .plain .rdr] (answer dout s) last = some (answer t.r t, some t.r) := by
  rw [runLines_cons rfl ((exec_answer_of_isExec h dout s).trans ht), lastReadAfter_of_isExec h, runLines_rdr, runLines_nil]

/-- Settles O45: the operands are written, and the call ends as `runLines_exec_rdr` says. -/
theorem callSequencesApplyTheOperation : Obligations.CallSequencesApplyTheOperation := by
  intro op s last a b hop
  constructor
  · have ht := exec_of_isExec hop { s with a := a }
    refine ⟨_, ht, ?_⟩
    rw [call1, runLines_wra rfl]
    exact runLines_exec_rdr hop ht 0 last
  · have ht := exec_of_isExec hop { s with a := a, b := b }
    refine ⟨_, ht, commitResult_a _ _, commitResult_b _ _, ?_⟩
    rw [call2, runLines_wra rfl, runLines_wrb rfl]
    exact runLines_exec_rdr hop ht 0 last

/-- Settles O46: `R` is read, and `$` writes it to the operand register. -/
theorem moveSequencesCopyTheResult : Obligations.MoveSequencesCopyTheResult := by
  intro s last
  constructor
  · rw [mvra, runLines_rdr, runLines_wra rfl, runLines_nil]
    rfl
  · rw [mvrb, runLines_rdr, runLines_wrb rfl, runLines_nil]
    rfl

end Sys2Proof.Proofs

/-! PROOF. The obligations on the interface commands (spec/40_interface_commands.md): what `WRA`, `WRB`, `RDR` and `RDST` write
and answer (R51 to R54), which inputs a command does not read (R57), and that every run completes (R50, R55). -/

namespace Sys2Proof.Proofs

open Sys2Proof Sys2Proof.Machine Sys2Proof.Laws

/-! ### The four interface commands -/

/-- `WRA` writes `DIN` to `A` and answers 0 (R51). -/
theorem exec_wra (din : Word) (s : State) : exec (.wra din) s = .next (answer 0 { s with a := din }) := rfl

/-- `WRB` writes `DIN` to `B` and answers 0 (R52). -/
theorem exec_wrb (din : Word) (s : State) : exec (.wrb din) s = .next (answer 0 { s with b := din }) := rfl

/-- `RDR` answers `R` (R53). -/
theorem exec_rdr (s : State) : exec .rdr s = .next (answer s.r s) := rfl

/-- `RDST` answers `ST`, zero-extended (R54). -/
theorem exec_rdst (s : State) : exec .rdst s = .next (answer (s.st.toWord.setWidth 128) s) := rfl

/-! ### Inputs a command does not read -/

/-- Commands with the same command word, neither `WRA` nor `WRB`, decode alike (R40, R57): if the word is legal, to the one
instruction it encodes, and if not, to the refusal that names it. -/
theorem decode_congr_din {cw : CommandWord} (ha : cw ≠ 0x01) (hb : cw ≠ 0x02) (din din' : Word) :
    decode ⟨cw, din⟩ = decode ⟨cw, din'⟩ := by
  have hencode : ∀ {d : Word} {i : Instr}, decode ⟨cw, d⟩ = .ok i → encode i = ⟨cw, 0⟩ := by
    intro d i hd
    rw [encode_of_decode_ok hd, if_neg (not_or.mpr ⟨ha, hb⟩)]
  cases hwf : legalCommandWord cw with
  | true =>
    obtain ⟨i, hi⟩ := (exists_decode_ok_iff_wellFormed ⟨cw, din⟩).mpr hwf
    obtain ⟨j, hj⟩ := (exists_decode_ok_iff_wellFormed ⟨cw, din'⟩).mpr hwf
    rw [hi, hj, ← decode_encode i, ← decode_encode j, hencode hi, hencode hj]
  | false =>
    rw [decode_of_not_wellFormed (c := ⟨cw, din⟩) hwf, decode_of_not_wellFormed (c := ⟨cw, din'⟩) hwf]

/-- The function of an operation that does not read `B` is the same for every content of `B` (R42, R57). -/
theorem opFunction_congr_b {i : Instr} (h : i.readsB = false) (a b b' : Word) :
    opFunction i a b = opFunction i a b' := by
  cases i with
  | add | sub | avg | gavg | mul | div | shift | pow => cases h
  | _ => rfl

/-- Committing an outcome neither reads nor writes `B` (R18, R55). -/
theorem commitResult_withB (res : Result) (b : Word) (s : State) :
    commitResult res { s with b := b } = { commitResult res s with b := b } := by
  cases res <;> rfl

/-- An `EXEC` that does not read `B` has the same outcome for every content of `B`, and leaves it there (R18, R57). -/
theorem exec_withB {i : Instr} (hexec : i.isExec = true) (hb : i.readsB = false) (b : Word) (s : State) :
    ∃ t, exec i s = .next t ∧ exec i { s with b := b } = .next { t with b := b } := by
  refine ⟨_, exec_of_isExec hexec s, ?_⟩
  rw [exec_of_isExec hexec, commitResult_withB, opFunction_congr_b hb s.a b s.b]

/-- Settles O5: the ten listed operations are `EXEC` commands that do not read `B`. -/
theorem unreadInputsAreIgnored : Obligations.UnreadInputsAreIgnored := by
  have hlist : ∀ i ∈ [Instr.fromint, .toint, .touint, .fromuint, .abs, .inv, .sqrt, .log2, .exp2, .exp],
      i.isExec = true ∧ i.readsB = false := by decide
  refine ⟨fun i hi s b => ?_, fun cw din din' ha hb => decode_congr_din ha hb din din'⟩
  obtain ⟨hexec, hb⟩ := hlist i hi
  exact exec_withB hexec hb b s

/-- Settles O17. -/
theorem operandWrites : Obligations.OperandWrites :=
  fun din s => ⟨decode_encode (.wra din), exec_wra din s, decode_encode (.wrb din), exec_wrb din s⟩

/-- Settles O18: the `DIN` of the encoding is 0, and any other is ignored. -/
theorem resultRead : Obligations.ResultRead :=
  fun din s => ⟨(decode_congr_din (by decide) (by decide) din 0).trans (decode_encode .rdr), exec_rdr s⟩

/-! ### Steps and runs -/

/-- A step completes, and takes the oldest pending input where there is one (R35, R50, R55). -/
theorem step_completes (s : State) : ∃ t, step s = .next t ∧ t.inputs = s.inputs.tail := by
  rcases step_cases s with ⟨hin, hs⟩ | ⟨p, rest, hin, hs⟩ | ⟨c, i, rest, hin, _, hs⟩ | ⟨c, e, rest, hin, _, hs⟩
  · exact ⟨s, hs, by simp [hin]⟩
  · exact ⟨_, hs, by simp [hin]⟩
  · obtain ⟨t, _, ht⟩ := exec_takenInput i s
    exact ⟨takenInput rest t, hs.trans (ht rest), by simp [hin]⟩
  · exact ⟨_, hs, by simp [hin]⟩

/-- Settles O8: by induction on the number of steps, each of which takes one input more. -/
theorem everyRunCompletes : Obligations.EveryRunCompletes := by
  intro n
  induction n with
  | zero => exact fun s => ⟨s, rfl, rfl⟩
  | succ n ih =>
    intro s
    obtain ⟨u, hstep, hu⟩ := step_completes s
    obtain ⟨t, hrun, ht⟩ := ih u
    refine ⟨t, (runSteps_succ hstep n).trans hrun, ?_⟩
    rw [ht, hu, List.drop_tail]

/-- What every step keeps, every run keeps: by induction on the number of steps. -/
theorem runSteps_keeps {P : State → Prop} (hkeep : ∀ s t, P s → step s = .next t → P t) (n : Nat) :
    ∀ {s t : State}, P s → runSteps n s = .next t → P t := by
  induction n with
  | zero =>
    intro s t hs ht
    cases ht
    exact hs
  | succ n ih =>
    intro s t hs ht
    obtain ⟨u, hstep, _⟩ := step_completes s
    exact ih (hkeep s u hs hstep) ((runSteps_succ hstep n).symm.trans ht)

/-- Every state reached from reset has the invariant, whatever the host issues (R27, R140). -/
theorem inv_of_reachedFromReset {inputs : List Input} {n : Nat} {s : State} (h : ReachedFromReset inputs n s) : s.Inv :=
  runSteps_keeps everyStepKeepsTheInvariant n (inv_of_cleared rfl rfl) h

/-! ### What `RDST` answers -/

/-- The bits of `ST` as `RDST` answers it: `ERR` in bits 2:0, `RV` in bit 3, and 0 above (R16, R54). -/
theorem toWord_setWidth_bits (st : Status) :
    (st.toWord.setWidth 128).extractLsb' 0 3 = st.err ∧ (st.toWord.setWidth 128).getLsbD 3 = st.rv ∧
      (st.toWord.setWidth 128).extractLsb' 4 124 = 0 := by
  obtain ⟨err, rv⟩ := st
  revert err rv
  decide

/-- A legal `ST` reads as one of seven words: 0x00 and 0x08 when `ERR` is 0, and the code when it is not (R54). -/
theorem toWord_setWidth_mem_of_legal {st : Status} (h : st.Legal) :
    st.toWord.setWidth 128 ∈ ([0x00, 0x08, 0x01, 0x02, 0x03, 0x04, 0x05] : List Word) := by
  obtain ⟨err, rv⟩ := st
  obtain ⟨hcode, hrv⟩ := h
  revert err rv
  decide

/-- Settles O19: `RDST` answers the word of `ST`, which is legal in every state reached from reset. -/
theorem statusRead : Obligations.StatusRead := by
  refine ⟨fun din s => ⟨?_, _, exec_rdst s, toWord_setWidth_bits s.st⟩, fun inputs n s hreach => ?_⟩
  · exact (decode_congr_din (by decide) (by decide) din 0).trans (decode_encode .rdst)
  · obtain ⟨hlegal, _⟩ := inv_of_reachedFromReset hreach
    exact ⟨_, exec_rdst s, toWord_setWidth_mem_of_legal hlegal⟩

end Sys2Proof.Proofs

/-! PROOF. The obligations on the conversions (spec/41_conversion.md): which words spell an operand in the range of `FROMINT`
and of `FROMUINT`, what the upper half of a word spells, and what `FROMINT`, `TOINT`, `TOUINT` and `FROMUINT` commit. -/

namespace Sys2Proof.Proofs

open Sys2Proof Sys2Proof.Machine Sys2Proof.Laws

/-! ### An `EXEC` with a known outcome -/

/-- An `EXEC` whose function answers a word succeeds with it (R55). -/
theorem exec_of_opFunction_ok {i : Instr} {s : State} {v : Word} (hi : i.isExec = true)
    (h : opFunction i s.a s.b = .ok v) : exec i s = .next (okState v s) := by
  rw [exec_of_isExec hi, h, commitResult_ok]

/-- An `EXEC` whose function fails takes the error (R55, R122). -/
theorem exec_of_opFunction_fail {i : Instr} {s : State} {k : FailKind} (hi : i.isExec = true)
    (h : opFunction i s.a s.b = .fail k) : exec i s = .next (failState k.code s) := by
  rw [exec_of_isExec hi, h, commitResult_fail]

/-! ### The bits of a word and what they spell -/

/-- Bits 127:63 as a number. -/
theorem toNat_bits_127_63 (v : Word) : (v.extractLsb' 63 65).toNat = v.toNat / 2 ^ 63 := by
  have hv : v.toNat < 2 ^ 128 := v.isLt
  rw [BitVec.extractLsb'_toNat, Nat.shiftRight_eq_div_pow]
  omega

/-- Bits 127:64 as a number. -/
theorem toNat_bits_127_64 (v : Word) : (v.extractLsb' 64 64).toNat = v.toNat / 2 ^ 64 := by
  have hv : v.toNat < 2 ^ 128 := v.isLt
  rw [BitVec.extractLsb'_toNat, Nat.shiftRight_eq_div_pow]
  omega

/-- Bits 127:63 are all zeros in the words below `2^63` (R63). -/
theorem bits_127_63_eq_zero_iff (v : Word) : v.extractLsb' 63 65 = 0 ↔ v.toNat < 2 ^ 63 := by
  rw [← BitVec.toNat_inj, toNat_bits_127_63, BitVec.ofNat_eq_ofNat, BitVec.toNat_ofNat, Nat.zero_mod]
  omega

/-- Bits 127:63 are all ones in the last `2^63` words. -/
theorem bits_127_63_eq_allOnes_iff (v : Word) :
    v.extractLsb' 63 65 = BitVec.allOnes 65 ↔ 2 ^ 128 - 2 ^ 63 ≤ v.toNat := by
  have hv : v.toNat < 2 ^ 128 := v.isLt
  rw [← BitVec.toNat_inj, toNat_bits_127_63, BitVec.toNat_allOnes]
  omega

/-- The range of `FROMINT`, in bits (R60): the non-negative half has zeros in bits 127:63 and the negative half ones. -/
theorem fromint_range_iff_bits (v : Word) :
    (-2 ^ 63 ≤ v.toInt ∧ v.toInt ≤ 2 ^ 63 - 1) ↔
      (v.extractLsb' 63 65 = 0 ∨ v.extractLsb' 63 65 = BitVec.allOnes 65) := by
  have hv : v.toNat < 2 ^ 128 := v.isLt
  rw [bits_127_63_eq_zero_iff, bits_127_63_eq_allOnes_iff, toInt_of_toNat]
  split_ifs <;> omega

/-- A word is negative when its bit 127 is set. -/
theorem toInt_neg_iff_bit_127 (v : Word) : v.toInt < 0 ↔ v.getLsbD 127 = true := by
  rw [show v.getLsbD 127 = v.msb from (BitVec.msb_eq_getLsbD_last v).symm, BitVec.msb_eq_toInt, decide_eq_true_iff]

/-- `{a[63:0], 64 zeros}` spells `a * 2^64` for `a` in the range of `FROMINT` (R60). -/
theorem lowHalf_append_zeros_toInt {v : Word} (h1 : -2 ^ 63 ≤ v.toInt) (h2 : v.toInt ≤ 2 ^ 63 - 1) :
    (v.extractLsb' 0 64 ++ 0#64).toInt = v.toInt * 2 ^ 64 := by
  have hv : v.toNat < 2 ^ 128 := v.isLt
  have hnat : (v.extractLsb' 0 64 ++ 0#64).toNat = v.toNat % 2 ^ 64 * 2 ^ 64 := by
    rw [BitVec.toNat_append, BitVec.toNat_ofNat, Nat.zero_mod, Nat.or_zero, Nat.shiftLeft_eq, BitVec.extractLsb'_toNat,
      Nat.shiftRight_zero]
  rw [toInt_of_toNat, hnat, toInt_of_toNat v]
  rw [toInt_of_toNat] at h1 h2
  split_ifs at h1 h2 ⊢ <;> omega

/-- `sext_128(a[127:64])` spells `fdiv(a, 2^64)` (R61). -/
theorem sext_highHalf_toInt (v : Word) : ((v.extractLsb' 64 64).signExtend 128).toInt = asr v.toInt 64 := by
  have hv : v.toNat < 2 ^ 128 := v.isLt
  rw [BitVec.toInt_signExtend_of_le (by decide), BitVec.toInt_eq_toNat_cond, toNat_bits_127_64, asr_eq_div,
    toInt_of_toNat]
  split_ifs <;> omega

/-- `zext_128(a[127:64])` spells `fdiv(a, 2^64)` for `a` at least 0 (R62). -/
theorem zext_highHalf_toInt {v : Word} (h : 0 ≤ v.toInt) :
    ((v.extractLsb' 64 64).setWidth 128).toInt = asr v.toInt 64 := by
  have hv : v.toNat < 2 ^ 128 := v.isLt
  have hnat : ((v.extractLsb' 64 64).setWidth 128).toNat = v.toNat / 2 ^ 64 := by
    rw [BitVec.toNat_setWidth, toNat_bits_127_64]
    omega
  rw [toInt_of_toNat, hnat, asr_eq_div, toInt_of_toNat v]
  rw [toInt_of_toNat] at h
  split_ifs at h ⊢ <;> omega

/-- `asr(z, k)` is the floor of the exact quotient (R79). -/
theorem asr_eq_floor (z : Int) (k : Nat) : asr z k = ⌊(z : ℚ) / 2 ^ k⌋ := by
  rw [asr, floorDiv_eq_floor]
  norm_cast

/-! ### The functions of the four conversions -/

/-- `F_FROMINT` in its range (R60). -/
theorem fFromint_of_range {a : Word} (h1 : -2 ^ 63 ≤ a.toInt) (h2 : a.toInt ≤ 2 ^ 63 - 1) :
    fFromint a = .ok (a.extractLsb' 0 64 ++ 0#64) := by
  rw [fFromint, if_neg (by rw [signedPlain_eq]; omega), eq_enc (lowHalf_append_zeros_toInt h1 h2)]

/-- `F_FROMINT` outside its range (R60). -/
theorem fFromint_of_not_range {a : Word} (h : a.toInt < -2 ^ 63 ∨ 2 ^ 63 - 1 < a.toInt) :
    fFromint a = .fail .overflow :=
  if_pos h

/-- `F_TOINT` in bits (R61). -/
theorem fToint_eq (a : Word) : fToint a = .ok ((a.extractLsb' 64 64).signExtend 128) := by
  rw [fToint, rawOf_eq, eq_enc (sext_highHalf_toInt a)]

/-- `F_TOUINT` of a negative value (R62). -/
theorem fTouint_of_neg {a : Word} (h : a.toInt < 0) : fTouint a = .fail .negativeValue :=
  if_pos h

/-- `F_TOUINT` of a value at least 0, in bits (R62). -/
theorem fTouint_of_nonneg {a : Word} (h : 0 ≤ a.toInt) :
    fTouint a = .ok ((a.extractLsb' 64 64).setWidth 128) := by
  rw [fTouint, rawOf_eq, if_neg (by omega), eq_enc (zext_highHalf_toInt h)]

/-- `F_FROMUINT` in its range (R63). -/
theorem fFromuint_of_lt {a : Word} (h : a.toNat < 2 ^ 63) : fFromuint a = .ok (enc (a.toNat * 2 ^ 64)) :=
  if_neg (by rw [unsignedPlain_eq]; omega)

/-- `F_FROMUINT` outside its range (R63). -/
theorem fFromuint_of_ge {a : Word} (h : 2 ^ 63 ≤ a.toNat) : fFromuint a = .fail .overflow :=
  if_pos h

/-- `F_TOINT` takes back what `F_FROMINT` made (R61): the floor of `n * 2^64 / 2^64` is `n`. -/
theorem fToint_lowHalf_append_zeros {a : Word} (h1 : -2 ^ 63 ≤ a.toInt) (h2 : a.toInt ≤ 2 ^ 63 - 1) :
    fToint (a.extractLsb' 0 64 ++ 0#64) = .ok a := by
  rw [fToint, rawOf_eq, lowHalf_append_zeros_toInt h1 h2, asr_eq_div, Int.mul_ediv_cancel _ (by norm_num),
    enc_of_toInt]

/-! ### The obligations -/

/-- Settles O20. -/
theorem fromintResult : Obligations.FromintResult := by
  refine fun s => ⟨decode_encode .fromint, fromint_range_iff_bits s.a, fun ⟨h1, h2⟩ => ⟨?_, ?_⟩, fun h => ?_⟩
  · exact exec_of_opFunction_ok rfl (fFromint_of_range h1 h2)
  · exact lowHalf_append_zeros_toInt h1 h2
  · exact exec_of_opFunction_fail (i := .fromint) rfl (fFromint_of_not_range h)

/-- Settles O21: in the round trip `TOINT` finds in `A` what `FROMINT` left in `R`. -/
theorem tointResult : Obligations.TointResult := by
  refine ⟨fun s => ⟨decode_encode .toint, ?_, ?_⟩, fun s ⟨h1, h2⟩ => ?_⟩
  · exact exec_of_opFunction_ok rfl (fToint_eq s.a)
  · exact (sext_highHalf_toInt s.a).trans (asr_eq_floor _ _)
  · have hfrom := exec_of_opFunction_ok (i := .fromint) rfl (fFromint_of_range h1 h2)
    have hto := exec_of_opFunction_ok (i := .toint)
      (s := { okState (s.a.extractLsb' 0 64 ++ 0#64) s with a := s.a.extractLsb' 0 64 ++ 0#64 }) rfl
      (fToint_lowHalf_append_zeros h1 h2)
    exact ⟨_, _, hfrom, hto, okState_r _ _, okState_st _ _⟩

/-- Settles O22. -/
theorem touintResult : Obligations.TouintResult := by
  refine fun s => ⟨decode_encode .touint, toInt_neg_iff_bit_127 s.a, fun h => ?_, fun h => ⟨?_, ?_⟩⟩
  · exact exec_of_opFunction_fail (i := .touint) rfl (fTouint_of_neg h)
  · exact exec_of_opFunction_ok rfl (fTouint_of_nonneg h)
  · exact (zext_highHalf_toInt h).trans (asr_eq_floor _ _)

/-- Settles O23: below `2^63` the product is in range, so the word spells it. -/
theorem fromuintResult : Obligations.FromuintResult := by
  refine fun s => ⟨decode_encode .fromuint, (bits_127_63_eq_zero_iff s.a).symm, fun h => ⟨enc (s.a.toNat * 2 ^ 64), ?_, ?_⟩,
    fun h => ?_⟩
  · exact exec_of_opFunction_ok rfl (fFromuint_of_lt h)
  · exact enc_toInt (by omega) (by omega)
  · exact exec_of_opFunction_fail (i := .fromuint) rfl (fFromuint_of_ge h)

end Sys2Proof.Proofs

/-! PROOF. The obligations on the core arithmetic (spec/42_core_arithmetic.md): what `ret` commits, the ranges of the exact
results, and what `ADD`, `SUB`, `ABS`, `INV`, `AVG`, `GAVG`, `MUL`, `DIV` and `SHIFT` answer. -/

namespace Sys2Proof.Proofs

open Sys2Proof Sys2Proof.Machine Sys2Proof.Laws

/-! ### An `EXEC` with an integer result -/

/-- An `EXEC` whose function answers the word of a representable integer succeeds with a word that spells it (R55). -/
theorem exec_of_opFunction_enc {i : Instr} {s : State} {z : Int} (hi : i.isExec = true)
    (h : opFunction i s.a s.b = .ok (enc z)) (hz : Representable z) :
    ∃ v : Word, exec i s = .next (okState v s) ∧ v.toInt = z :=
  ⟨enc z, exec_of_opFunction_ok hi h, enc_toInt hz.1 hz.2⟩

/-- An `EXEC` whose function is `ret` of a representable integer succeeds with a word that spells it (R55). -/
theorem exec_of_opFunction_ret {i : Instr} {s : State} {z : Int} (hi : i.isExec = true)
    (h : opFunction i s.a s.b = ret z) (hz : Representable z) :
    ∃ v : Word, exec i s = .next (okState v s) ∧ v.toInt = z :=
  exec_of_opFunction_enc hi (h.trans (ret_ok hz.1 hz.2)) hz

/-- An `EXEC` whose function is `ret` of an integer that is not representable takes Overflow (R55, R122). -/
theorem exec_of_opFunction_ret_overflow {i : Instr} {s : State} {z : Int} (hi : i.isExec = true)
    (h : opFunction i s.a s.b = ret z) (hz : ¬Representable z) : exec i s = .next (failState 1 s) :=
  exec_of_opFunction_fail hi (h.trans (ret_fail (by omega)))

/-! ### Overflow of a sum and of a difference, in bits -/

/-- Overflow of a sum in bits (R70), through the library's overflow flag, which is both this range test and this test of
bits. -/
theorem not_representable_add_iff (a b : Word) :
    ¬Representable (a.toInt + b.toInt) ↔
      a.getLsbD 127 = b.getLsbD 127 ∧ (a + b).getLsbD 127 ≠ a.getLsbD 127 := by
  have hflag : ¬Representable (a.toInt + b.toInt) ↔ a.saddOverflow b = true := by
    rw [BitVec.saddOverflow, Bool.or_eq_true, decide_eq_true_iff, decide_eq_true_iff]
    omega
  rw [hflag, BitVec.saddOverflow_eq]
  simp [BitVec.msb_eq_getLsbD_last]

/-- Overflow of a difference in bits (R71), through the library's overflow flag as for a sum. -/
theorem not_representable_sub_iff (a b : Word) :
    ¬Representable (a.toInt - b.toInt) ↔
      a.getLsbD 127 ≠ b.getLsbD 127 ∧ (a - b).getLsbD 127 ≠ a.getLsbD 127 := by
  have hflag : ¬Representable (a.toInt - b.toInt) ↔ a.ssubOverflow b = true := by
    rw [BitVec.ssubOverflow, Bool.or_eq_true, decide_eq_true_iff, decide_eq_true_iff]
    omega
  rw [hflag, BitVec.ssubOverflow_eq]
  simp only [BitVec.msb_eq_getLsbD_last]
  cases a.getLsbD 127 <;> cases b.getLsbD 127 <;> simp

/-! ### Ranges of the floored results -/

/-- The magnitude of every word but `MIN_RAW` is representable (R72). -/
theorem representable_abs {a : Word} (h : a.toInt ≠ -2 ^ 127) : Representable |a.toInt| := by
  obtain ⟨h1, h2⟩ := toInt_bounds a
  rcases abs_choice a.toInt with habs | habs <;> omega

/-- A right shift of a word is representable (R78). -/
theorem representable_asr (v : Word) (k : Nat) : Representable (asr v.toInt k) := by
  obtain ⟨h1, h2⟩ := toInt_bounds v
  have hp : (0 : Int) < 2 ^ k := by positivity
  have hlo : (-2 ^ 127 : Int) ≤ v.toInt / 2 ^ k := Int.le_ediv_of_mul_le hp (by nlinarith)
  have hhi : v.toInt / 2 ^ k < 2 ^ 127 := Int.ediv_lt_of_lt_mul hp (by nlinarith)
  rw [asr_eq_div]
  omega

/-- From 128 on, every count shifts a word to the same sign fill (R78, log entry 11). -/
theorem asr_min_128 (v : Word) (n : Nat) : asr v.toInt (min n 128) = asr v.toInt n := by
  obtain ⟨h1, h2⟩ := toInt_bounds v
  rcases le_total n 128 with hn | hn
  · rw [min_eq_left hn]
  · have hp : (2 : Int) ^ 128 ≤ 2 ^ n := pow_le_pow_right₀ (by norm_num) hn
    rw [min_eq_right hn, asr_eq_div, asr_eq_div]
    rcases le_or_gt 0 v.toInt with h0 | h0
    · rw [Int.ediv_eq_zero_of_lt h0 (by omega), Int.ediv_eq_zero_of_lt h0 (by omega)]
    · rw [Int.ediv_eq_neg_one_of_neg_of_le h0 (by omega), Int.ediv_eq_neg_one_of_neg_of_le h0 (by omega)]

/-- The half-sum lies between the operands (R74). -/
theorem half_sum_between (x y : Int) : min x y ≤ (x + y) / 2 ∧ (x + y) / 2 ≤ max x y := by
  omega

/-- The floored reciprocal is representable for every operand but 0, 1, 2 and -1 (R73). -/
theorem representable_reciprocal {x : Int} (h0 : x ≠ 0) (h1 : x ≠ 1) (h2 : x ≠ 2) (hm : x ≠ -1) :
    Representable (floorDiv (2 ^ 128) x) := by
  rcases (by omega : 3 ≤ x ∨ x ≤ -2) with hx | hx
  · obtain ⟨hlo, hhi⟩ := floorDiv_bounds_pos (2 ^ 128) (x := x) (by omega)
    constructor <;> nlinarith
  · obtain ⟨hlo, hhi⟩ := floorDiv_bounds_neg (2 ^ 128) (x := x) (by omega)
    constructor <;> nlinarith

/-- The floored reciprocals of 1, 2 and -1 are `2^128`, `2^127` and `-2^128` (R73). -/
theorem not_representable_reciprocal {x : Int} (h : x = 1 ∨ x = 2 ∨ x = -1) :
    ¬Representable (floorDiv (2 ^ 128) x) := by
  rcases h with rfl | rfl | rfl <;> decide

/-- A non-negative product of two words is below `2^254`, unless both are `MIN_RAW` (R75). -/
theorem mul_toInt_lt {a b : Word} (h0 : 0 ≤ a.toInt * b.toInt)
    (hmin : ¬(a.toInt = -2 ^ 127 ∧ b.toInt = -2 ^ 127)) : a.toInt * b.toInt < 2 ^ 127 * 2 ^ 127 := by
  obtain ⟨ha1, ha2⟩ := toInt_bounds a
  obtain ⟨hb1, hb2⟩ := toInt_bounds b
  rcases mul_nonneg_iff.1 h0 with ⟨ha, hb⟩ | ⟨ha, hb⟩
  · nlinarith
  · rcases (by omega : -2 ^ 127 < a.toInt ∨ -2 ^ 127 < b.toInt) with h | h <;> nlinarith

/-- The root of a product of two words by its two bounds (R75). -/
theorem isqrt_mul_bounds {a b : Word} (h0 : 0 ≤ a.toInt * b.toInt) :
    (isqrt (a.toInt * b.toInt).toNat : Int) * isqrt (a.toInt * b.toInt).toNat ≤ a.toInt * b.toInt ∧
      a.toInt * b.toInt < ((isqrt (a.toInt * b.toInt).toNat : Int) + 1) * (isqrt (a.toInt * b.toInt).toNat + 1) := by
  have hlt : a.toInt * b.toInt < 2 ^ 128 * 2 ^ 128 := by
    by_cases hmin : a.toInt = -2 ^ 127 ∧ b.toInt = -2 ^ 127
    · rw [hmin.1, hmin.2]
      norm_num
    · exact (mul_toInt_lt h0 hmin).trans (by norm_num)
  obtain ⟨z, hz⟩ := Int.eq_ofNat_of_zero_le h0
  rw [hz] at hlt ⊢
  rw [Int.toNat_natCast]
  exact_mod_cast isqrt_bounds (z := z) (by exact_mod_cast hlt)

/-! ### The functions of the operations -/

/-- `F_ABS` of every word but `MIN_RAW` is the word of the magnitude (R72). -/
theorem fAbs_of_ne_min {a : Word} (h : a.toInt ≠ -2 ^ 127) : fAbs a = .ok (enc |a.toInt|) := by
  rw [fAbs, rawOf_eq, if_neg h]
  split_ifs with hneg
  · rw [abs_of_neg hneg]
  · rw [abs_of_nonneg (by omega), enc_of_toInt]

/-- `F_INV` of an operand other than 0 (R73). -/
theorem fInv_of_ne_zero {a : Word} (h : a.toInt ≠ 0) : fInv a = ret (floorDiv (2 ^ 128) a.toInt) :=
  if_neg h

/-- `F_INV` is `F_DIV` of `ROM.ONE` (R73): `ONE * 2^64` is `2^128`. -/
theorem fDiv_one (a : Word) : fDiv Rom.one a = fInv a := by
  have hone : rawOf Rom.one * 2 ^ 64 = 2 ^ 128 := by decide
  rw [fDiv, fInv, hone]

/-- `F_AVG` is the word of half the sum, floored (R74). -/
theorem fAvg_eq (a b : Word) : fAvg a b = .ok (enc ((a.toInt + b.toInt) / 2)) := by
  rw [fAvg, halfSum_eq]

/-- `F_GAVG` of a product that is not negative (R75). -/
theorem fGavg_of_nonneg {a b : Word} (h : 0 ≤ a.toInt * b.toInt) :
    fGavg a b = ret (isqrt (a.toInt * b.toInt).toNat) :=
  if_neg (by rw [rawOf_eq, rawOf_eq]; omega)

/-- `F_MUL` is `ret` of the floor of the exact product (R76). -/
theorem fMul_eq_ret (a b : Word) : fMul a b = ret ⌊((a.toInt : ℚ) * b.toInt) / 2 ^ 64⌋ := by
  rw [fMul, asr_eq_floor, Int.cast_mul]

/-- `F_DIV` by a divisor other than 0 is `ret` of the floor of the exact quotient (R77). -/
theorem fDiv_eq_ret {a b : Word} (h : b.toInt ≠ 0) : fDiv a b = ret ⌊((a.toInt : ℚ) * 2 ^ 64) / b.toInt⌋ := by
  rw [fDiv, rawOf_eq, rawOf_eq, if_neg h, floorDiv_eq_floor]
  norm_cast

/-- A left shift is `ret` of the exact product for every count (R78): from 128 on only 0 stays in range (log entry 11). -/
theorem shiftLeftBy_eq_ret (x : Int) (n : Nat) : shiftLeftBy x n = ret (x * 2 ^ n) := by
  rw [shiftLeftBy]
  split_ifs with h0 hn
  · rw [h0, zero_mul, ret_ok (by norm_num) (by norm_num)]
  · rfl
  · have hp : (2 : Int) ^ 128 ≤ 2 ^ n := pow_le_pow_right₀ (by norm_num) (by omega)
    rw [ret_fail]
    rcases (by omega : x ≤ -1 ∨ 1 ≤ x) with hx | hx
    · exact .inl (by nlinarith)
    · exact .inr (by nlinarith)

/-- `F_SHIFT` by a count of 0 or more (R78). -/
theorem fShift_of_nonneg {a b : Word} (h : 0 ≤ b.toInt) : fShift a b = ret (a.toInt * 2 ^ b.toInt.toNat) := by
  rw [fShift, signedPlain_eq, if_pos h, shiftLeftBy_eq_ret]

/-- `F_SHIFT` by a negative count (R78). -/
theorem fShift_of_neg {a b : Word} (h : b.toInt < 0) :
    fShift a b = .ok (enc (asr a.toInt (-b.toInt).toNat)) := by
  rw [fShift, signedPlain_eq, if_neg (by omega), shiftRightBy, rawOf_eq, asr_min_128]

/-! ### The functions on integers in FixedPoint -/

/-- `F_SUB` takes back what `F_ADD` added (R70). -/
theorem fSub_of_toInt_eq_add {v a b : Word} (h : v.toInt = a.toInt + b.toInt) : fSub v b = .ok a := by
  obtain ⟨h1, h2⟩ := toInt_bounds a
  rw [fSub, rawOf_eq, rawOf_eq, h, add_sub_cancel_right, ret_ok h1 h2, enc_of_toInt]

/-- `F_MUL` of two integers is `ret` of their product in FixedPoint: nothing is lost to the floor (R76). -/
theorem fMul_of_integers {a b : Word} {m n : Int} (ha : a.toInt = m * 2 ^ 64) (hb : b.toInt = n * 2 ^ 64) :
    fMul a b = ret (m * n * 2 ^ 64) := by
  rw [fMul, rawOf_eq, rawOf_eq, ha, hb, asr_eq_div,
    show m * 2 ^ 64 * (n * 2 ^ 64) = m * n * 2 ^ 64 * 2 ^ 64 by ring, Int.mul_ediv_cancel _ (by norm_num)]

/-- `F_DIV` of a product of integers by one of them is the other (R77). -/
theorem fDiv_of_integer_product {v a b : Word} {m n : Int} (hv : v.toInt = m * n * 2 ^ 64)
    (ha : a.toInt = m * 2 ^ 64) (hb : b.toInt = n * 2 ^ 64) (hn : n ≠ 0) : fDiv v b = .ok a := by
  obtain ⟨h1, h2⟩ := toInt_bounds a
  have hb0 : n * 2 ^ 64 ≠ 0 := by omega
  rw [fDiv, rawOf_eq, rawOf_eq, hv, hb, if_neg hb0, floorDiv,
    show m * n * 2 ^ 64 * 2 ^ 64 = m * 2 ^ 64 * (n * 2 ^ 64) by ring, Int.mul_fdiv_cancel _ hb0, ← ha, ret_ok h1 h2,
    enc_of_toInt]

/-- `F_TOINT` of an integer in FixedPoint (R61). -/
theorem fToint_of_integer {a : Word} {m : Int} (ha : a.toInt = m * 2 ^ 64) : fToint a = .ok (enc m) := by
  rw [fToint, rawOf_eq, ha, asr_eq_div, Int.mul_ediv_cancel _ (by norm_num)]

/-! ### The obligations -/

/-- Settles O24: `SUB` finds the sum in `A` and the same `B`. -/
theorem addResult : Obligations.AddResult := by
  refine fun s => ⟨decode_encode .add, fun h => ?_, fun h => ?_, not_representable_add_iff s.a s.b⟩
  · obtain ⟨v, hadd, hv⟩ := exec_of_opFunction_ret (i := .add) (s := s) rfl rfl h
    have hsub := exec_of_opFunction_ok (i := .sub) (s := { okState v s with a := v }) rfl (fSub_of_toInt_eq_add hv)
    exact ⟨v, hadd, hv, _, hsub, okState_r _ _, okState_st _ _⟩
  · exact exec_of_opFunction_ret_overflow rfl rfl h

/-- Settles O25. -/
theorem subResult : Obligations.SubResult := by
  refine fun s => ⟨decode_encode .sub, fun h => ?_, fun h => ?_, not_representable_sub_iff s.a s.b⟩
  · exact exec_of_opFunction_ret rfl rfl h
  · exact exec_of_opFunction_ret_overflow rfl rfl h

/-- Settles O26: the one word that spells `MIN_RAW` has no magnitude in range. -/
theorem absResult : Obligations.AbsResult := by
  have hmin : (0x80000000000000000000000000000000 : Word).toInt = -2 ^ 127 := by decide
  refine fun s => ⟨decode_encode .abs, fun h => ?_, fun h => ?_⟩
  · have hne : s.a.toInt ≠ -2 ^ 127 := fun heq => h (BitVec.eq_of_toInt_eq (heq.trans hmin.symm))
    exact exec_of_opFunction_enc rfl (fAbs_of_ne_min hne) (representable_abs hne)
  · exact exec_of_opFunction_fail (i := .abs) rfl (if_pos (by rw [rawOf_eq, h, hmin]))

/-- Settles O27: `INV` and `DIV` of `ROM.ONE` commit the same outcome, and differ in what they found in `A` and `B`. -/
theorem invResult : Obligations.InvResult := by
  refine fun s => ⟨decode_encode .inv, fun h => ?_, fun h => ?_, fun ⟨h0, h1, h2, hm⟩ => ?_, ?_⟩
  · exact exec_of_opFunction_fail (i := .inv) rfl (if_pos h)
  · exact exec_of_opFunction_ret_overflow rfl (fInv_of_ne_zero (by omega)) (not_representable_reciprocal h)
  · obtain ⟨v, hinv, hv⟩ :=
      exec_of_opFunction_ret (i := .inv) (s := s) rfl (fInv_of_ne_zero h0) (representable_reciprocal h0 h1 h2 hm)
    refine ⟨v, hinv, ?_⟩
    rw [hv, floorDiv_eq_floor]
    norm_cast
  · refine ⟨_, _, exec_of_isExec rfl s, exec_of_isExec rfl _, ?_⟩
    rw [show opFunction .div 0x00000000000000010000000000000000 s.a = opFunction .inv s.a s.b from fDiv_one s.a]
    rcases commitResult_cases (opFunction .inv s.a s.b) s with ⟨v, hop, -⟩ | ⟨k, hop, -⟩ <;> simp [hop]

/-- Settles O28. -/
theorem avgResult : Obligations.AvgResult := by
  refine fun s => ⟨decode_encode .avg, ?_⟩
  obtain ⟨hmin, hmax⟩ := half_sum_between s.a.toInt s.b.toInt
  obtain ⟨ha1, ha2⟩ := toInt_bounds s.a
  obtain ⟨hb1, hb2⟩ := toInt_bounds s.b
  obtain ⟨v, havg, hv⟩ := exec_of_opFunction_enc (i := .avg) (s := s) rfl (fAvg_eq s.a s.b) (by omega)
  have hfloor : (s.a.toInt + s.b.toInt) / 2 = ⌊((s.a.toInt : ℚ) + s.b.toInt) / 2⌋ := by
    have h := asr_eq_floor (s.a.toInt + s.b.toInt) 1
    rwa [asr_eq_div, pow_one, pow_one, Int.cast_add] at h
  exact ⟨v, havg, hv.trans hfloor, hv ▸ hmin, hv ▸ hmax⟩

/-- Settles O29: below `2^254` the root is below `2^127`, and the product of `MIN_RAW` and `MIN_RAW` is `2^254`. -/
theorem gavgResult : Obligations.GavgResult := by
  refine fun s => ⟨decode_encode .gavg, fun h => ?_, fun ⟨ha, hb⟩ => ?_, fun ⟨h0, hmin⟩ => ?_⟩
  · exact exec_of_opFunction_fail (i := .gavg) rfl (if_pos h)
  · have hprod : s.a.toInt * s.b.toInt = 2 ^ 127 * 2 ^ 127 := by rw [ha, hb]; norm_num
    have h0 : 0 ≤ s.a.toInt * s.b.toInt := by rw [hprod]; norm_num
    obtain ⟨-, hhi⟩ := isqrt_mul_bounds h0
    exact exec_of_opFunction_ret_overflow rfl (fGavg_of_nonneg h0) fun ⟨_, hr⟩ => by nlinarith
  · obtain ⟨hlo, hhi⟩ := isqrt_mul_bounds h0
    have hlt := mul_toInt_lt h0 hmin
    have hz : Representable (isqrt (s.a.toInt * s.b.toInt).toNat) := ⟨by omega, by nlinarith⟩
    obtain ⟨v, hgavg, hv⟩ := exec_of_opFunction_ret (i := .gavg) (s := s) rfl (fGavg_of_nonneg h0) hz
    refine ⟨v, hgavg, ?_⟩
    rw [hv]
    exact ⟨by omega, hlo, hhi⟩

/-- Settles O30. -/
theorem mulResult : Obligations.MulResult := by
  refine fun s => ⟨decode_encode .mul, fun h => ?_, fun h => ?_⟩
  · exact exec_of_opFunction_ret rfl (fMul_eq_ret s.a s.b) h
  · exact exec_of_opFunction_ret_overflow rfl (fMul_eq_ret s.a s.b) h

/-- Settles O31. -/
theorem divResult : Obligations.DivResult := by
  refine fun s => ⟨decode_encode .div, fun h => ?_, fun h0 h => ?_, fun h0 h => ?_⟩
  · exact exec_of_opFunction_fail (i := .div) rfl (if_pos h)
  · exact exec_of_opFunction_ret rfl (fDiv_eq_ret h0) h
  · exact exec_of_opFunction_ret_overflow rfl (fDiv_eq_ret h0) h

/-- Settles O32: each command finds in `A` what the one before it left in `R`. -/
theorem mulDivRoundTrip : Obligations.MulDivRoundTrip := by
  intro s m n ha hb hn hlo hhi
  obtain ⟨v, hmul, hv⟩ := exec_of_opFunction_ret (i := .mul) (s := s) rfl (fMul_of_integers ha hb) (by omega)
  have hdiv := exec_of_opFunction_ok (i := .div) (s := { okState v s with a := v }) rfl
    (fDiv_of_integer_product hv ha hb hn)
  have hm : Representable m := by
    have := toInt_bounds s.a
    omega
  obtain ⟨w, htoint, hw⟩ := exec_of_opFunction_enc (i := .toint)
    (s := { okState s.a { okState v s with a := v } with a := s.a }) rfl (fToint_of_integer ha) hm
  exact ⟨_, _, _, hmul, okState_st _ _, hv, hdiv, okState_st _ _, okState_r _ _, htoint, okState_st _ _, hw⟩

/-- Settles O33. -/
theorem shiftResult : Obligations.ShiftResult := by
  refine fun s => ⟨decode_encode .shift, fun h0 h => ?_, fun h0 h => ?_, fun hneg => ?_⟩
  · exact exec_of_opFunction_ret rfl (fShift_of_nonneg h0) h
  · exact exec_of_opFunction_ret_overflow rfl (fShift_of_nonneg h0) h
  · rw [← asr_eq_floor]
    exact exec_of_opFunction_enc rfl (fShift_of_neg hneg) (representable_asr s.a _)

end Sys2Proof.Proofs

/-! PROOF. The obligations on power and root (spec/43_power_root.md): `POW` as an unbounded loop, what that loop answers on
integers and on small bases (R90), and the reference square root (R92) with the `SQRT` it gives (R91). -/

namespace Sys2Proof.Proofs

open Sys2Proof Sys2Proof.Machine Sys2Proof.Laws

/-! ### The loop of `POW` without a bound -/

/-- The `while` loop of R90 for every exponent: the exponent itself is fuel enough, since `e < 2^e`. -/
def powWhile (result base : Word) (e : Nat) : Result := powLoop e result base e

/-- What an iteration of R90 makes of `result`: it multiplies `base` in where the low bit of `e` is 1. -/
def multiplyIfOdd (result base : Word) (e : Nat) : Result := if e % 2 = 1 then fMul result base else .ok result

@[simp] theorem powWhile_zero (result base : Word) : powWhile result base 0 = .ok result := rfl

/-- One iteration of the loop. -/
theorem powWhile_of_ne_zero (result base : Word) {e : Nat} (he : e ≠ 0) :
    powWhile result base e =
      (multiplyIfOdd result base e).andThen fun result' =>
        if e / 2 = 0 then .ok result' else (fMul base base).andThen fun base' => powWhile result' base' (e / 2) := by
  obtain ⟨n, rfl⟩ := Nat.exists_eq_succ_of_ne_zero he
  have hlt : (n + 1) / 2 < 2 ^ n := lt_of_le_of_lt (by omega) Nat.lt_two_pow_self
  have hfuel (r b : Word) : powLoop n r b ((n + 1) / 2) = powWhile r b ((n + 1) / 2) :=
    powLoop_fuel n _ r b _ hlt Nat.lt_two_pow_self
  rw [powWhile, powLoop, if_neg he]
  simp only [hfuel, multiplyIfOdd]

/-- `F_POW` is the loop from `ROM.ONE`: 128 iterations are enough for an exponent of 128 bits (R90). -/
theorem fPow_eq_powWhile (a b : Word) : fPow a b = powWhile Rom.one a b.toNat :=
  powLoop_fuel 128 _ Rom.one a _ b.isLt Nat.lt_two_pow_self

theorem multiplyIfOdd_of_even {e : Nat} (h : e % 2 = 0) (r b : Word) : multiplyIfOdd r b e = .ok r :=
  if_neg (by omega)

theorem multiplyIfOdd_of_odd {e : Nat} (h : e % 2 = 1) (r b : Word) : multiplyIfOdd r b e = fMul r b :=
  if_pos h

theorem multiplyIfOdd_cases (r b : Word) (e : Nat) :
    (∃ v, multiplyIfOdd r b e = .ok v) ∨ multiplyIfOdd r b e = .fail .overflow := by
  rcases Nat.mod_two_eq_zero_or_one e with h | h
  · exact .inl ⟨r, multiplyIfOdd_of_even h r b⟩
  · rw [multiplyIfOdd_of_odd h]
    exact fMul_cases r b

/-- All the loop can do: a word, or Overflow. -/
theorem powWhile_cases (e : Nat) : ∀ result base,
    (∃ v, powWhile result base e = .ok v) ∨ powWhile result base e = .fail .overflow := by
  induction e using Nat.strong_induction_on with
  | _ e ih =>
    intro result base
    rcases eq_or_ne e 0 with rfl | he
    · exact .inl ⟨result, rfl⟩
    rw [powWhile_of_ne_zero result base he]
    rcases multiplyIfOdd_cases result base e with ⟨r, hr⟩ | hr
    · rw [hr, andThen_ok]
      split_ifs
      · exact .inl ⟨r, rfl⟩
      · rcases fMul_cases base base with ⟨b, hb⟩ | hb
        · rw [hb, andThen_ok]
          exact ih (e / 2) (by omega) r b
        · exact .inr (by rw [hb, andThen_fail])
    · exact .inr (by rw [hr, andThen_fail])

/-- Settles O34: the loop whose fuel is its exponent meets the equations. -/
theorem powIsItsLoop : Obligations.PowIsItsLoop := by
  refine ⟨powWhile, powWhile_zero, fun result base e he => powWhile_of_ne_zero result base he, decode_encode .pow,
    fun s => ?_⟩
  have hpow : opFunction .pow s.a s.b = powWhile 0x00000000000000010000000000000000 s.a s.b.toNat :=
    fPow_eq_powWhile s.a s.b
  rcases powWhile_cases s.b.toNat 0x00000000000000010000000000000000 s.a with ⟨v, hv⟩ | hfail
  · rw [exec_of_opFunction_ok rfl (hpow.trans hv), hv]
  · rw [exec_of_opFunction_fail rfl (hpow.trans hfail), hfail]
    rfl

/-! ### Powers of integers -/

/-- `ret` of what a word spells is the word. -/
theorem ret_toInt (v : Word) : ret v.toInt = .ok v := by
  obtain ⟨h1, h2⟩ := toInt_bounds v
  rw [ret_ok h1 h2, enc_of_toInt]

/-- `ret` of an integer that is not representable. -/
theorem ret_of_not_representable {z : Int} (h : ¬Representable z) : ret z = .fail .overflow :=
  ret_fail (by omega)

theorem toInt_romOne : Rom.one.toInt = 2 ^ 64 := by decide

/-- An integer out of range stays out of range times a positive one. -/
theorem not_representable_mul_of_pos {k n : Int} (hk : ¬Representable (k * 2 ^ 64)) (hn : 0 < n) :
    ¬Representable (k * n * 2 ^ 64) := by
  rintro ⟨h1, h2⟩
  rcases (by omega : k < -2 ^ 63 ∨ 2 ^ 63 ≤ k) with h | h <;> nlinarith

/-- `2^63` lies strictly between the squares of 3037000499 and the next number, so a square out of range is above it. -/
theorem lt_square_of_not_representable {m : Int} (h : ¬Representable (m * m * 2 ^ 64)) : 2 ^ 63 < m * m := by
  have hge : 2 ^ 63 ≤ m * m := by
    have := mul_self_nonneg m
    omega
  rw [← abs_mul_abs_self m] at hge ⊢
  have hm : 3037000499 < |m| := by
    by_contra hle
    nlinarith [abs_nonneg m]
  nlinarith

/-- No square overflows that the power does not need (R90): a multiple of the power of a square out of range is out of range,
at the negative end too. -/
theorem not_representable_mul_square_pow {k m : Int} {n : Nat} (hk : k ≠ 0) (hn : n ≠ 0)
    (h : ¬Representable (m * m * 2 ^ 64)) : ¬Representable (k * (m * m) ^ n * 2 ^ 64) := by
  have hsquare := lt_square_of_not_representable h
  have hpow : 2 ^ 63 < (m * m) ^ n := hsquare.trans_le (le_self_pow₀ (by omega) hn)
  rintro ⟨h1, h2⟩
  rcases (by omega : k ≤ -1 ∨ 1 ≤ k) with hk | hk <;> nlinarith

/-- A power by its exponent's low bit and half: what one iteration of the loop keeps (R90). -/
theorem mul_pow_eq_half (k m : Int) (e : Nat) : k * m ^ e = k * m ^ (e % 2) * (m * m) ^ (e / 2) := by
  rw [← pow_two, ← pow_mul, mul_assoc, ← pow_add, Nat.mod_add_div]

/-- The product of an iteration, on integers. -/
theorem multiplyIfOdd_of_integers {r b : Word} {k m : Int} {e : Nat} (hr : r.toInt = k * 2 ^ 64)
    (hb : b.toInt = m * 2 ^ 64) : multiplyIfOdd r b e = ret (k * m ^ (e % 2) * 2 ^ 64) := by
  rcases Nat.mod_two_eq_zero_or_one e with h | h
  · rw [multiplyIfOdd_of_even h, h, pow_zero, mul_one, ← hr, ret_toInt]
  · rw [multiplyIfOdd_of_odd h, h, pow_one, fMul_of_integers hr hb]

/-- The product of an iteration can overflow only when `base` is not 0. -/
theorem base_ne_zero_of_not_representable {r : Word} {k m : Int} {e : Nat} (hr : r.toInt = k * 2 ^ 64)
    (h : ¬Representable (k * m ^ (e % 2) * 2 ^ 64)) : m ≠ 0 := by
  rintro rfl
  rcases Nat.mod_two_eq_zero_or_one e with hbit | hbit
  · rw [hbit, pow_zero, mul_one, ← hr] at h
    exact h (toInt_bounds r)
  · rw [hbit, pow_one, mul_zero] at h
    exact h (by decide)

/-- The loop on integers is `ret` of the exact power, by strong induction on the exponent. A `result` other than 0, as the loop
starts with, can become 0 only when `base` is 0. -/
theorem powWhile_of_integers (e : Nat) : ∀ {r b : Word} {k m : Int},
    r.toInt = k * 2 ^ 64 → b.toInt = m * 2 ^ 64 → (m ≠ 0 → k ≠ 0) → powWhile r b e = ret (k * m ^ e * 2 ^ 64) := by
  induction e using Nat.strong_induction_on with
  | _ e ih =>
    intro r b k m hr hb hk
    rcases eq_or_ne e 0 with rfl | he
    · rw [powWhile_zero, pow_zero, mul_one, ← hr, ret_toInt]
    rw [powWhile_of_ne_zero r b he, multiplyIfOdd_of_integers hr hb, mul_pow_eq_half k m e]
    rcases ret_cases (k * m ^ (e % 2) * 2 ^ 64) with ⟨-, r', hr', hret⟩ | ⟨hout, hret⟩
    · have hk' : m ≠ 0 → k * m ^ (e % 2) ≠ 0 := fun hm => mul_ne_zero (hk hm) (pow_ne_zero _ hm)
      rw [hret, andThen_ok, fMul_of_integers hb hb]
      split_ifs with hhalf
      · rw [hhalf, pow_zero, mul_one, hret]
      · rcases ret_cases (m * m * 2 ^ 64) with ⟨-, b', hb', hret'⟩ | ⟨hout', hret'⟩
        · rw [hret', andThen_ok]
          exact ih (e / 2) (by omega) hr' hb' fun hmm => hk' (left_ne_zero_of_mul hmm)
        · have hm : m ≠ 0 := fun h0 => hout' (by rw [h0]; decide)
          rw [hret', andThen_fail, ret_of_not_representable (not_representable_mul_square_pow (hk' hm) hhalf hout')]
    · have hpos : 0 < (m * m) ^ (e / 2) := pow_pos (mul_self_pos.2 (base_ne_zero_of_not_representable hr hout)) _
      rw [hret, andThen_fail, ret_of_not_representable (not_representable_mul_of_pos hout hpos)]

/-- `F_POW` of an integer is `ret` of the exact power (R90, R76). -/
theorem fPow_of_integer {a : Word} {m : Int} (ha : a.toInt = m * 2 ^ 64) (b : Word) :
    fPow a b = ret (m ^ b.toNat * 2 ^ 64) := by
  rw [fPow_eq_powWhile, powWhile_of_integers _ (toInt_romOne.trans (one_mul _).symm) ha fun _ => one_ne_zero, one_mul]

/-- Settles O36. -/
theorem powIsExactOnIntegers : Obligations.PowIsExactOnIntegers := by
  refine fun s m ha => ⟨fun h => ?_, fun h => ?_⟩
  · exact exec_of_opFunction_ret rfl (fPow_of_integer ha s.b) (by omega)
  · exact exec_of_opFunction_ret_overflow rfl (fPow_of_integer ha s.b) (by omega)

/-! ### Small exponents and small bases -/

/-- `ROM.ONE` is neutral for `F_MUL` (R76). -/
theorem fMul_romOne (a : Word) : fMul Rom.one a = .ok a := by
  rw [fMul, rawOf_eq, rawOf_eq, toInt_romOne, asr_eq_div, Int.mul_ediv_cancel_left _ (by norm_num), ret_toInt]

/-- Exponent 1 gives the operand (R90): no square is computed. -/
theorem powWhile_one (a : Word) : powWhile Rom.one a 1 = .ok a := by
  rw [powWhile_of_ne_zero _ _ one_ne_zero, multiplyIfOdd_of_odd rfl, fMul_romOne, andThen_ok, if_pos (by decide)]

/-- The product of two values in `[-1.0, 1.0]` is one (R76). -/
theorem fMul_of_abs_le {a b : Word} (ha : |a.toInt| ≤ 2 ^ 64) (hb : |b.toInt| ≤ 2 ^ 64) :
    ∃ v : Word, fMul a b = .ok v ∧ |v.toInt| ≤ 2 ^ 64 := by
  have hab : |a.toInt * b.toInt| ≤ 2 ^ 64 * 2 ^ 64 := by
    rw [abs_mul]
    exact mul_le_mul ha hb (abs_nonneg _) (by norm_num)
  have hfloor : |a.toInt * b.toInt / 2 ^ 64| ≤ 2 ^ 64 := by
    rw [abs_le] at hab ⊢
    omega
  have hrange := abs_le.1 hfloor
  rcases ret_cases (a.toInt * b.toInt / 2 ^ 64) with ⟨-, v, hv, hret⟩ | ⟨hout, -⟩
  · exact ⟨v, by rw [fMul, rawOf_eq, rawOf_eq, asr_eq_div, hret], hv ▸ hfloor⟩
  · omega

theorem multiplyIfOdd_of_abs_le (e : Nat) {r b : Word} (hr : |r.toInt| ≤ 2 ^ 64) (hb : |b.toInt| ≤ 2 ^ 64) :
    ∃ v : Word, multiplyIfOdd r b e = .ok v ∧ |v.toInt| ≤ 2 ^ 64 := by
  rcases Nat.mod_two_eq_zero_or_one e with h | h
  · exact ⟨r, multiplyIfOdd_of_even h r b, hr⟩
  · rw [multiplyIfOdd_of_odd h]
    exact fMul_of_abs_le hr hb

/-- The loop on values in `[-1.0, 1.0]` completes with one, by strong induction on the exponent. -/
theorem powWhile_of_abs_le (e : Nat) : ∀ {r b : Word}, |r.toInt| ≤ 2 ^ 64 → |b.toInt| ≤ 2 ^ 64 →
    ∃ v : Word, powWhile r b e = .ok v ∧ |v.toInt| ≤ 2 ^ 64 := by
  induction e using Nat.strong_induction_on with
  | _ e ih =>
    intro r b hr hb
    rcases eq_or_ne e 0 with rfl | he
    · exact ⟨r, powWhile_zero r b, hr⟩
    obtain ⟨r', hr', hr'le⟩ := multiplyIfOdd_of_abs_le e hr hb
    rw [powWhile_of_ne_zero r b he, hr', andThen_ok]
    split_ifs
    · exact ⟨r', rfl, hr'le⟩
    · obtain ⟨b', hb', hb'le⟩ := fMul_of_abs_le hb hb
      rw [hb', andThen_ok]
      exact ih (e / 2) (by omega) hr'le hb'le

/-- `POW` of an integer whose power is in range commits the word that spells the power (R90). -/
theorem exec_pow_of_integer {s : State} {m : Int} {v : Word} (ha : s.a.toInt = m * 2 ^ 64)
    (hv : v.toInt = m ^ s.b.toNat * 2 ^ 64) : exec .pow s = .next (okState v s) :=
  exec_of_opFunction_ok rfl (by rw [opFunction, fPow_of_integer ha, ← hv, ret_toInt])

/-- Settles O35: the bases 0, 1.0 and -1.0 are integers. -/
theorem powOfSmallBasesCompletes : Obligations.PowOfSmallBasesCompletes := by
  intro s
  have hexec {v : Word} (h : powWhile Rom.one s.a s.b.toNat = .ok v) : exec .pow s = .next (okState v s) :=
    exec_of_opFunction_ok rfl ((fPow_eq_powWhile s.a s.b).trans h)
  refine ⟨fun hb => ?_, fun hb => ?_, fun ha hb => ?_, fun ha => ?_, fun ha => ?_, fun ha => ?_⟩
  · exact hexec (by rw [hb]; exact powWhile_zero _ _)
  · exact hexec (by rw [hb]; exact powWhile_one _)
  · have hne : s.b.toNat ≠ 0 := fun h => hb (BitVec.eq_of_toNat_eq h)
    exact exec_pow_of_integer (m := 0) (by rw [ha]; decide) (by rw [zero_pow hne]; decide)
  · exact exec_pow_of_integer (m := 1) (by rw [ha]; decide) (by rw [one_pow]; decide)
  · refine exec_pow_of_integer (m := -1) (by rw [ha]; decide) ?_
    split_ifs with hodd
    · rw [(Nat.odd_iff.2 hodd).neg_one_pow]
      decide
    · rw [(Nat.not_odd_iff_even.1 (mt Nat.odd_iff.1 hodd)).neg_one_pow]
      decide
  · obtain ⟨v, hv, hle⟩ := powWhile_of_abs_le s.b.toNat (r := Rom.one) (by decide) ha
    exact ⟨v, hexec hv, hle⟩

/-! ### The reference square root -/

/-- From a partial root that satisfies the invariant of R92 the remaining iterations reach the library's floor root. -/
theorem isqrtLoop_eq_sqrt {n z r : Nat} (h1 : r * r ≤ z) (h2 : z < (r + 2 ^ n) * (r + 2 ^ n)) :
    isqrtLoop n z r = Nat.sqrt z :=
  Nat.eq_sqrt.2 (isqrtLoop_bounds n z r h1 h2)

/-- The first iteration finds the invariant of R92. -/
theorem lt_zero_add_two_pow_mul_self {z k : Nat} (h : z < 2 ^ (2 * k)) : z < (0 + 2 ^ k) * (0 + 2 ^ k) := by
  rwa [zero_add, ← pow_add, ← two_mul]

/-- The reference datapath is the floor root for every `z < 2^(2k)` (R92). -/
theorem isqrtRef_eq_sqrt {z k : Nat} (h : z < 2 ^ (2 * k)) : isqrtRef z k = Nat.sqrt z :=
  isqrtLoop_eq_sqrt (Nat.zero_le z) (lt_zero_add_two_pow_mul_self h)

/-- One iteration of R92: the partial root takes bit `i` where its square allows it. -/
def isqrtIteration (z i r : Nat) : Nat := if (r + 2 ^ i) * (r + 2 ^ i) ≤ z then r + 2 ^ i else r

theorem isqrtLoop_succ (z i r : Nat) : isqrtLoop (i + 1) z r = isqrtLoop i z (isqrtIteration z i r) := rfl

/-- One iteration keeps the invariant of R92. -/
theorem isqrtIteration_bounds {z i r : Nat} (h1 : r * r ≤ z) (h2 : z < (r + 2 ^ (i + 1)) * (r + 2 ^ (i + 1))) :
    isqrtIteration z i r * isqrtIteration z i r ≤ z ∧
      z < (isqrtIteration z i r + 2 ^ i) * (isqrtIteration z i r + 2 ^ i) := by
  rw [isqrtIteration]
  split_ifs with h
  · exact ⟨h, by rwa [add_assoc, ← two_mul, ← pow_succ']⟩
  · exact ⟨h1, by omega⟩

/-- The operand of the root in `SQRT` is below `2^191` (R91, R92). -/
theorem scaled_toNat_lt (a : Word) : (a.toInt * 2 ^ 64).toNat < 2 ^ 191 := by
  have := toInt_bounds a
  omega

/-- The operand of the root in `GAVG` is at most `2^254` (R75, R92). -/
theorem mul_toNat_le (a b : Word) : (a.toInt * b.toInt).toNat ≤ 2 ^ 254 := by
  obtain ⟨ha1, ha2⟩ := toInt_bounds a
  obtain ⟨hb1, hb2⟩ := toInt_bounds b
  have hle : a.toInt * b.toInt ≤ 2 ^ 127 * 2 ^ 127 := by
    refine (le_abs_self _).trans ?_
    rw [abs_mul]
    exact mul_le_mul (abs_le.2 ⟨ha1, by omega⟩) (abs_le.2 ⟨hb1, by omega⟩) (abs_nonneg _) (by norm_num)
  omega

/-- Settles O38. -/
theorem isqrtReferenceIsTheFloorRoot : Obligations.IsqrtReferenceIsTheFloorRoot := by
  refine ⟨fun z k h => ?_, fun z i r h1 h2 => ?_, fun z n r => isqrtLoop_eq_sqrt, fun a _ => ?_, fun a b _ => ?_⟩
  · exact ⟨⟨Nat.zero_le z, lt_zero_add_two_pow_mul_self h⟩, rfl, Nat.eq_sqrt.1 (isqrtRef_eq_sqrt h)⟩
  · exact ⟨isqrtIteration z i r, rfl, isqrtLoop_succ z i r, isqrtIteration_bounds h1 h2⟩
  · have hlt := scaled_toNat_lt a
    rw [isqrt, isqrtRef_eq_sqrt (hlt.trans (by norm_num)), isqrtRef_eq_sqrt (hlt.trans (by norm_num))]
  · exact isqrtRef_eq_sqrt ((mul_toNat_le a b).trans_lt (by norm_num))

/-! ### `SQRT` -/

/-- The root of `SQRT` by its two bounds (R91): the root of `GAVG` on the operand and `ROM.ONE`. -/
theorem isqrt_scaled_bounds {a : Word} (h : 0 ≤ a.toInt) :
    (isqrt (a.toInt * 2 ^ 64).toNat : Int) ^ 2 ≤ a.toInt * 2 ^ 64 ∧
      a.toInt * 2 ^ 64 < ((isqrt (a.toInt * 2 ^ 64).toNat : Int) + 1) ^ 2 := by
  have hbounds := isqrt_mul_bounds (a := a) (b := Rom.one) (by rw [toInt_romOne]; omega)
  rwa [toInt_romOne, ← pow_two, ← pow_two] at hbounds

/-- The root of `SQRT` is below `2^96` (R91). -/
theorem isqrt_scaled_lt {a : Word} (h : 0 ≤ a.toInt) : (isqrt (a.toInt * 2 ^ 64).toNat : Int) < 2 ^ 96 := by
  obtain ⟨hlo, -⟩ := isqrt_scaled_bounds h
  obtain ⟨-, ha⟩ := toInt_bounds a
  exact lt_of_pow_lt_pow_left₀ 2 (by norm_num) (by omega)

/-- `F_SQRT` of an operand that is not negative (R91). -/
theorem fSqrt_of_nonneg {a : Word} (h : 0 ≤ a.toInt) : fSqrt a = .ok (enc (isqrt (a.toInt * 2 ^ 64).toNat)) :=
  if_neg (by rw [rawOf_eq]; omega)

/-- The unit's own square of a value whose exact square is at most `x` does not exceed `x` (R91, R76). -/
theorem fMul_self_le {v : Word} {x : Int} (hx : x ≤ 2 ^ 127 - 1) (h : v.toInt ^ 2 ≤ x * 2 ^ 64) :
    ∃ w : Word, fMul v v = .ok w ∧ w.toInt ≤ x := by
  have hnonneg := sq_nonneg v.toInt
  rw [pow_two] at h hnonneg
  rcases ret_cases (v.toInt * v.toInt / 2 ^ 64) with ⟨-, w, hw, hret⟩ | ⟨hout, -⟩
  · exact ⟨w, by rw [fMul, rawOf_eq, asr_eq_div, hret], by omega⟩
  · omega

/-- Settles O37: `MUL` finds the root in both operand registers. -/
theorem sqrtResult : Obligations.SqrtResult := by
  refine fun s => ⟨decode_encode .sqrt, fun h => ?_, fun h => ?_⟩
  · exact exec_of_opFunction_fail (i := .sqrt) rfl (if_pos h)
  · obtain ⟨hlo, hhi⟩ := isqrt_scaled_bounds h
    have hlt := isqrt_scaled_lt h
    obtain ⟨v, hsqrt, hv⟩ := exec_of_opFunction_enc (i := .sqrt) (s := s) rfl (fSqrt_of_nonneg h) (by omega)
    rw [← hv] at hlo hhi hlt
    obtain ⟨w, hmul, hw⟩ := fMul_self_le (toInt_bounds s.a).2 hlo
    have hexec := exec_of_opFunction_ok (i := .mul) (s := { s with a := v, b := v }) rfl hmul
    exact ⟨v, hsqrt, by omega, hlt, hlo, hhi, _, hexec, okState_st _ _, hw⟩

end Sys2Proof.Proofs

/-! PROOF. The obligations on `LOG2` (spec/44_transcendental.md R100): its loop emits the bits of a sequence of ratios in
Q1.127, and each floor of that sequence loses less than `2^-126` of the logarithm. -/

namespace Sys2Proof.Proofs

open Sys2Proof Sys2Proof.Machine Sys2Proof.Laws

/-! ### The datapath of `LOG2` -/

/-- A ratio in Q1.127: a number in `[1, 2)` with 127 fraction bits. -/
abbrev InQ127 (m : Nat) : Prop := 2 ^ 127 ≤ m ∧ m < 2 ^ 128

/-- The fraction bit that one iteration of R100 emits: whether the squared ratio is at least 2. -/
def log2Bit (m : Nat) : Nat := m * m / 2 ^ 255

/-- The ratio after one iteration of R100: the square, halved where the bit is 1, floored to Q1.127. -/
def log2Next (m : Nat) : Nat := m * m / 2 ^ (127 + log2Bit m)

/-- The ratio after `i` iterations of R100. -/
def log2Ratio (m i : Nat) : Nat := log2Next^[i] m

/-- The ratio `x / 2^n` that the iterations start from, with `n = msb(x)` (R100). -/
def log2Start (x : Nat) : Nat := x * 2 ^ (127 - msb x)

theorem log2Bit_le_one {m : Nat} (h : InQ127 m) : log2Bit m ≤ 1 :=
  (log2Iteration_bounds h.1 h.2).1

theorem inQ127_log2Next {m : Nat} (h : InQ127 m) : InQ127 (log2Next m) := by
  obtain ⟨-, -, hnext⟩ := log2Iteration_bounds h.1 h.2
  exact hnext

theorem log2Ratio_succ (m i : Nat) : log2Ratio m (i + 1) = log2Next (log2Ratio m i) :=
  Function.iterate_succ_apply' log2Next i m

theorem inQ127_log2Ratio {m : Nat} (h : InQ127 m) (i : Nat) : InQ127 (log2Ratio m i) := by
  induction i with
  | zero => exact h
  | succ i ih =>
    rw [log2Ratio_succ]
    exact inQ127_log2Next ih

/-- One iteration of the loop, by its bit and its next ratio. -/
theorem log2Loop_succ {m : Nat} (h : InQ127 m) (n : Nat) (res : Int) :
    log2Loop (n + 1) m res = log2Loop n (log2Next m) (res + log2Bit m * 2 ^ n) := by
  obtain ⟨-, hbit, -⟩ := log2Iteration_bounds h.1 h.2
  rw [log2Loop, hbit]
  rfl

/-- The loop adds up the bits of the ratios, the first with the highest weight (R100). -/
theorem log2Loop_eq_sum (n : Nat) : ∀ {m : Nat} (res : Int), InQ127 m →
    log2Loop n m res = res + ∑ i ∈ Finset.range n, (log2Bit (log2Ratio m i) : Int) * 2 ^ (n - 1 - i) := by
  induction n with
  | zero => simp [log2Loop]
  | succ n ih =>
    intro m res h
    have hweight (i : Nat) : n + 1 - 1 - (i + 1) = n - 1 - i := by omega
    rw [log2Loop_succ h, ih _ (inQ127_log2Next h), Finset.sum_range_succ']
    simp only [hweight]
    rw [add_assoc, add_comm ((log2Bit m : Int) * 2 ^ n)]
    rfl

/-- From the ratio 1.0 the loop adds nothing: its square is again 1.0. -/
theorem log2Loop_one (n : Nat) (res : Int) : log2Loop n (2 ^ 127) res = res := by
  induction n with
  | zero => rfl
  | succ n ih =>
    rw [log2Loop_succ (by decide), show log2Next (2 ^ 127) = 2 ^ 127 by decide +kernel,
      show log2Bit (2 ^ 127) = 0 by decide +kernel, Nat.cast_zero, zero_mul, add_zero, ih]

/-- The highest bit of a positive operand is at most bit 126, since bit 127 is its sign (R100). -/
theorem msb_le_126 {x : Nat} (h0 : x ≠ 0) (hx : x < 2 ^ 127) : msb x ≤ 126 := by
  obtain ⟨hlo, -⟩ := msb_bounds h0
  have hlt : msb x < 127 := (Nat.pow_lt_pow_iff_right (by norm_num)).1 (hlo.trans_lt hx)
  omega

/-- The ratio 1.0 in Q1.127 is the highest bit of the operand, shifted to bit 127. -/
theorem two_pow_127_split {n : Nat} (hn : n ≤ 126) : 2 ^ 127 = 2 ^ n * 2 ^ (127 - n) := by
  rw [← pow_add]
  congr 1
  omega

theorem inQ127_log2Start {x : Nat} (h0 : x ≠ 0) (hx : x < 2 ^ 127) : InQ127 (log2Start x) := by
  have hsplit := two_pow_127_split (msb_le_126 h0 hx)
  obtain ⟨hlo, hhi⟩ := msb_bounds h0
  rw [log2Start]
  constructor
  · rw [hsplit]
    gcongr
  · calc x * 2 ^ (127 - msb x) < 2 ^ (msb x + 1) * 2 ^ (127 - msb x) := by gcongr
      _ = 2 ^ 128 := by rw [pow_succ, mul_right_comm, ← hsplit]; norm_num

/-- The raw result of `LOG2` for a positive raw operand (R100). -/
def log2Result (x : Nat) : Int := log2Loop 64 (log2Start x) (((msb x : Int) - 64) * 2 ^ 64)

/-- The fraction bits stay below one unit of the integer part (R100). -/
theorem log2Result_bounds {x : Nat} (h0 : x ≠ 0) (hx : x < 2 ^ 127) :
    ((msb x : Int) - 64) * 2 ^ 64 ≤ log2Result x ∧ log2Result x < ((msb x : Int) - 63) * 2 ^ 64 := by
  obtain ⟨hlo, hhi⟩ := inQ127_log2Start h0 hx
  obtain ⟨h1, h2⟩ := log2Loop_bounds 64 _ (((msb x : Int) - 64) * 2 ^ 64) hlo hhi
  exact ⟨h1, by rw [log2Result]; omega⟩

theorem log2Result_eq_sum {x : Nat} (h0 : x ≠ 0) (hx : x < 2 ^ 127) :
    log2Result x = ((msb x : Int) - 64) * 2 ^ 64 +
      ∑ i ∈ Finset.range 64, (log2Bit (log2Ratio (log2Start x) i) : Int) * 2 ^ (63 - i) :=
  log2Loop_eq_sum 64 _ (inQ127_log2Start h0 hx)

/-- The logarithm of a power of two is the integer part alone (R100). -/
theorem log2Result_of_two_pow {x : Nat} (hx : x < 2 ^ 127) (hpow : x = 2 ^ msb x) :
    log2Result x = ((msb x : Int) - 64) * 2 ^ 64 := by
  have hmsb : msb x ≤ 126 := msb_le_126 (by rw [hpow]; positivity) hx
  have hstart : log2Start x = 2 ^ 127 := by
    rw [log2Start, two_pow_127_split hmsb, ← hpow]
  rw [log2Result, hstart, log2Loop_one]

/-- A positive operand is a natural number below `2^127`. -/
theorem exists_nat_of_toInt_pos {a : Word} (h : 0 < a.toInt) :
    ∃ x : Nat, a.toInt = x ∧ x ≠ 0 ∧ x < 2 ^ 127 := by
  obtain ⟨-, hle⟩ := toInt_bounds a
  exact ⟨a.toInt.toNat, by omega, by omega, by omega⟩

/-- `F_LOG2` of a positive operand (R100). -/
theorem fLog2_of_pos {a : Word} {x : Nat} (ha : a.toInt = x) (h0 : x ≠ 0) : fLog2 a = .ok (enc (log2Result x)) := by
  rw [fLog2, rawOf_eq, ha, if_neg (by omega), Int.toNat_natCast]
  rfl

/-- `LOG2` of a positive operand commits the word that spells its raw result (R100, R55). -/
theorem exec_log2_of_pos {s : State} {x : Nat} (ha : s.a.toInt = x) (h0 : x ≠ 0) (hx : x < 2 ^ 127) :
    ∃ v : Word, exec .log2 s = .next (okState v s) ∧ v.toInt = log2Result x := by
  obtain ⟨hlo, hhi⟩ := log2Result_bounds h0 hx
  have hmsb := msb_le_126 h0 hx
  exact exec_of_opFunction_enc rfl (fLog2_of_pos ha h0) (by omega)

/-- Settles O39: the ratios are those of `log2Ratio`. -/
theorem log2Datapath : Obligations.Log2Datapath := by
  refine fun s => ⟨decode_encode .log2, fun h => ?_, fun h => ?_⟩
  · exact exec_of_opFunction_fail (i := .log2) rfl (if_pos h)
  · obtain ⟨x, ha, h0, hx⟩ := exists_nat_of_toInt_pos h
    obtain ⟨v, hexec, hv⟩ := exec_log2_of_pos ha h0 hx
    obtain ⟨hlo, hhi⟩ := msb_bounds h0
    obtain ⟨hge, hlt⟩ := log2Result_bounds h0 hx
    have hratio := inQ127_log2Ratio (inQ127_log2Start h0 hx)
    have hstart : (log2Ratio (log2Start x) 0 : Int) = x * 2 ^ (127 - msb x) := by simp [log2Ratio, log2Start]
    rw [← hv] at hge hlt
    simp only [ha]
    refine ⟨v, msb x, log2Ratio (log2Start x), fun i => log2Bit (log2Ratio (log2Start x) (i - 1)), hexec,
      by exact_mod_cast hlo, by exact_mod_cast hhi, hstart, fun i _ => ?_, fun i _ => hratio i, ?_, hge, hlt,
      fun hpow => ?_⟩
    · exact ⟨rfl, log2Bit_le_one (hratio i), log2Ratio_succ _ i⟩
    · exact hv.trans (log2Result_eq_sum h0 hx)
    · exact hv.trans (log2Result_of_two_pow hx (by exact_mod_cast hpow))

/-! ### The error of `LOG2` -/

/-- The base-2 logarithm of a ratio in Q1.127. -/
noncomputable def ratioLog (m : Nat) : ℝ := Real.logb 2 ((m : ℝ) / 2 ^ 127)

/-- The bounds of a ratio in Q1.127 as a real number. -/
theorem inQ127_cast {m : Nat} (h : InQ127 m) : (2 : ℝ) ^ 127 ≤ m ∧ (m : ℝ) < 2 ^ 128 := by
  exact_mod_cast h

/-- The logarithm of a ratio in `[1, 2)` is in `[0, 1)`. -/
theorem ratioLog_bounds {m : Nat} (h : InQ127 m) : 0 ≤ ratioLog m ∧ ratioLog m < 1 := by
  obtain ⟨hlo, hhi⟩ := inQ127_cast h
  constructor
  · exact Real.logb_nonneg (by norm_num) ((one_le_div (by positivity)).2 hlo)
  · rw [ratioLog, Real.logb_lt_iff_lt_rpow (by norm_num) (by positivity), Real.rpow_one, div_lt_iff₀ (by positivity)]
    linarith

/-- One unit of `2^-127` more is less than `2^-126` more of the logarithm: its slope is `1 / log 2` at most. -/
theorem logb_succ_lt {m : Nat} (h : InQ127 m) : Real.logb 2 (((m : ℝ) + 1) / 2 ^ 127) < ratioLog m + 1 / 2 ^ 126 := by
  obtain ⟨hm, -⟩ := inQ127_cast h
  have hm0 : (0 : ℝ) < m := by linarith
  have hlog2 : 1 / 2 < Real.log 2 := by linarith [Real.log_two_gt_d9]
  have hslope : Real.log (1 + 1 / m) ≤ 1 / 2 ^ 127 := by
    have hlog := Real.log_le_sub_one_of_pos (x := 1 + 1 / (m : ℝ)) (by positivity)
    have hinv : 1 / (m : ℝ) ≤ 1 / 2 ^ 127 := one_div_le_one_div_of_le (by positivity) hm
    linarith
  have hsplit : ((m : ℝ) + 1) / 2 ^ 127 = m / 2 ^ 127 * (1 + 1 / m) := by field_simp
  rw [hsplit, Real.logb_mul (by positivity) (by positivity), ratioLog]
  gcongr
  rw [Real.logb, div_lt_iff₀ (by linarith)]
  linarith

/-- A floored quotient by its two bounds. -/
theorem cast_div_bounds (a d : Nat) : ((a / d : Nat) : ℝ) ≤ a / d ∧ (a : ℝ) / d < (a / d : Nat) + 1 := by
  rw [← Nat.floor_div_eq_div (K := ℝ)]
  exact ⟨Nat.floor_le (by positivity), Nat.lt_floor_add_one _⟩

/-- One iteration doubles the logarithm, splits off its integer part as the bit, and loses less than `2^-126` to the floor. -/
theorem two_mul_ratioLog_bounds {m : Nat} (h : InQ127 m) :
    log2Bit m + ratioLog (log2Next m) ≤ 2 * ratioLog m ∧
      2 * ratioLog m < log2Bit m + ratioLog (log2Next m) + 1 / 2 ^ 126 := by
  have hnext := inQ127_log2Next h
  have hm0 : (0 : ℝ) < m := lt_of_lt_of_le (by positivity) (inQ127_cast h).1
  have hnext0 : (0 : ℝ) < log2Next m := lt_of_lt_of_le (by positivity) (inQ127_cast hnext).1
  obtain ⟨hfloor, hceil⟩ := cast_div_bounds (m * m) (2 ^ (127 + log2Bit m))
  rw [← log2Next] at hfloor hceil
  set q : ℝ := ((m * m : Nat) : ℝ) / (2 ^ (127 + log2Bit m) : Nat) with hq
  have hq0 : 0 < q := hnext0.trans_le hfloor
  have hsquare : 2 * ratioLog m = log2Bit m + Real.logb 2 (q / 2 ^ 127) := by
    have hpow : ((m : ℝ) / 2 ^ 127) ^ 2 = 2 ^ log2Bit m * (q / 2 ^ 127) := by
      rw [hq]
      push_cast
      rw [pow_add]
      field_simp
    have hlog := congrArg (Real.logb 2) hpow
    rwa [Real.logb_pow, Real.logb_mul (by positivity) (by positivity), Real.logb_pow, Real.logb_self_eq_one (by norm_num),
      mul_one] at hlog
  rw [hsquare, add_assoc]
  constructor
  · gcongr
    exact Real.logb_le_logb_of_le (by norm_num) (by positivity) (by gcongr)
  · gcongr
    refine lt_trans (Real.logb_lt_logb (by norm_num) (by positivity) ?_) (logb_succ_lt hnext)
    gcongr

/-- The last `n` iterations compute `2^n` times the logarithm of the ratio they start from: the loss of each iteration counts
half of that of the one before it, and the last bit costs less than 1. -/
theorem log2Loop_error (n : Nat) : ∀ {m : Nat} (res : Int), InQ127 m →
    (log2Loop n m res : ℝ) ≤ res + 2 ^ n * ratioLog m ∧
      res + 2 ^ n * ratioLog m < log2Loop n m res + 1 + (2 ^ n - 1) / 2 ^ 126 := by
  induction n with
  | zero =>
    intro m res h
    obtain ⟨hlo, hhi⟩ := ratioLog_bounds h
    simpa [log2Loop] using ⟨hlo, hhi⟩
  | succ n ih =>
    intro m res h
    obtain ⟨hlo, hhi⟩ := two_mul_ratioLog_bounds h
    obtain ⟨ihlo, ihhi⟩ := ih (res + log2Bit m * 2 ^ n) (inQ127_log2Next h)
    have hp : (0 : ℝ) < 2 ^ n := by positivity
    rw [log2Loop_succ h, pow_succ]
    push_cast at ihlo ihhi
    constructor <;> nlinarith

/-- The logarithm of a positive operand is its integer part plus that of the ratio `LOG2` starts from (R100). -/
theorem logb_eq_ratioLog_log2Start {x : Nat} (h0 : x ≠ 0) (hx : x < 2 ^ 127) :
    Real.logb 2 ((x : ℝ) / 2 ^ 64) = ((msb x : ℝ) - 64) + ratioLog (log2Start x) := by
  have hx0 : (x : ℝ) ≠ 0 := by exact_mod_cast h0
  have hone : Real.logb 2 2 = 1 := Real.logb_self_eq_one (by norm_num)
  have hsplit : (2 : ℝ) ^ 127 = 2 ^ msb x * 2 ^ (127 - msb x) := by exact_mod_cast two_pow_127_split (msb_le_126 h0 hx)
  rw [ratioLog, log2Start, hsplit]
  push_cast
  rw [mul_div_mul_right _ _ (by positivity), Real.logb_div hx0 (by positivity), Real.logb_div hx0 (by positivity),
    Real.logb_pow, Real.logb_pow, hone]
  push_cast
  ring

/-- Settles O40. -/
theorem log2ErrorAgainstTheRealLogarithm : Obligations.Log2ErrorAgainstTheRealLogarithm := by
  intro s h
  obtain ⟨x, ha, h0, hx⟩ := exists_nat_of_toInt_pos h
  obtain ⟨v, hexec, hv⟩ := exec_log2_of_pos ha h0 hx
  obtain ⟨hlo, hhi⟩ := log2Loop_error 64 (((msb x : Int) - 64) * 2 ^ 64) (inQ127_log2Start h0 hx)
  rw [← log2Result, ← hv] at hlo hhi
  push_cast at hlo hhi
  refine ⟨v, hexec, ?_⟩
  rw [ha, Int.cast_natCast, logb_eq_ratioLog_log2Start h0 hx, div_le_iff₀ (by positivity), lt_div_iff₀ (by positivity)]
  constructor <;> linarith

end Sys2Proof.Proofs

/-! PROOF. The obligations on `EXP2` and `EXP` (spec/44_transcendental.md R101, R102): the product of the table entries follows
the power of 2 of the fraction bits read so far, from below, and the last step scales it by the integer part. -/

namespace Sys2Proof.Proofs

open Sys2Proof Sys2Proof.Machine Sys2Proof.Laws

/-! ### The product of the table entries -/

/-- The product in Q1.127 after the first `i` table steps of R101. -/
def exp2Product (f : Nat) : Nat → Nat
  | 0 => 2 ^ 127
  | i + 1 =>
    if f.testBit (64 - (i + 1)) = true then exp2Product f i * (Rom.t (i + 1)).toNat / 2 ^ 127 else exp2Product f i

/-- The last `n` table steps of the loop complete the product (R101). -/
theorem exp2Loop_exp2Product (f n : Nat) : ∀ {i : Nat}, n + i = 64 →
    exp2Loop n f (exp2Product f i) = exp2Product f 64 := by
  induction n with
  | zero =>
    intro i hi
    rw [zero_add] at hi
    rw [hi, exp2Loop]
  | succ n ih =>
    intro i hi
    have hbit : 64 - (i + 1) = n := by omega
    have hentry : 64 - n = i + 1 := by omega
    rw [← ih (i := i + 1) (by omega), exp2Loop, exp2Product, hbit, hentry]
    simp only [bitAt_eq_one, unsigned_eq]

/-- The factor `2^f` of R101 is the whole product, floored to 64 fraction bits. -/
theorem exp2Fraction_eq (f : Nat) : exp2Fraction f = exp2Product f 64 / 2 ^ 63 := by
  rw [exp2Fraction, ← exp2Loop_exp2Product f 64 (i := 0) rfl, exp2Product]

theorem exp2Product_zero (i : Nat) : exp2Product 0 i = 2 ^ 127 := by
  induction i with
  | zero => rfl
  | succ i ih => rw [exp2Product, if_neg (by simp), ih]

/-- Every table entry is at least 1.0, so the product never falls below 1.0 (R101). -/
theorem exp2Product_ge (f : Nat) {i : Nat} (hi : i ≤ 64) : 2 ^ 127 ≤ exp2Product f i := by
  induction i with
  | zero => exact le_rfl
  | succ i ih =>
    have hprod := ih (by omega)
    rw [exp2Product]
    split_ifs
    · rw [Nat.le_div_iff_mul_le (by positivity)]
      exact Nat.mul_le_mul hprod (romT_ge (by omega) hi)
    · exact hprod

/-! ### The power of 2 that the product follows -/

/-- The power of 2 of the first `i` fraction bits, `f / 2^(64 - i)` of weight `2^-i`. -/
noncomputable def leadingPower (f i : Nat) : ℝ := 2 ^ (((f / 2 ^ (64 - i) : Nat) : ℝ) / 2 ^ i)

theorem one_le_leadingPower (f i : Nat) : 1 ≤ leadingPower f i :=
  Real.one_le_rpow (by norm_num) (by positivity)

/-- No bit read: the power is 1. -/
theorem leadingPower_zero {f : Nat} (hf : f < 2 ^ 64) : leadingPower f 0 = 1 := by
  rw [leadingPower, Nat.div_eq_of_lt hf]
  simp

/-- The whole fraction is below 1, so its power is below 2. -/
theorem leadingPower_lt_two {f i : Nat} (hf : f < 2 ^ 64) (hi : i ≤ 64) : leadingPower f i < 2 := by
  have hbits : f / 2 ^ (64 - i) < 2 ^ i := by
    rw [Nat.div_lt_iff_lt_mul (by positivity), ← pow_add]
    rwa [show i + (64 - i) = 64 by omega]
  have hlt : ((f / 2 ^ (64 - i) : Nat) : ℝ) / 2 ^ i < 1 := by
    rw [div_lt_one (by positivity)]
    exact_mod_cast hbits
  simpa [leadingPower] using Real.rpow_lt_rpow_of_exponent_lt (x := 2) (by norm_num) hlt

/-- A bit read extends the leading bits by that bit. -/
theorem leadingBits_succ (f : Nat) {i : Nat} (hi : i < 64) :
    f / 2 ^ (64 - (i + 1)) = 2 * (f / 2 ^ (64 - i)) + (f.testBit (64 - (i + 1))).toNat := by
  have hpow : 2 ^ (64 - i) = 2 ^ (64 - (i + 1)) * 2 := by
    rw [← pow_succ]
    congr 1
    omega
  rw [hpow, ← Nat.div_div_eq_div_mul, Nat.toNat_testBit, Nat.div_add_mod]

/-- A bit read multiplies the power by the root that the table entry stands for, where the bit is 1 (R101). -/
theorem leadingPower_succ (f : Nat) {i : Nat} (hi : i < 64) :
    leadingPower f (i + 1) =
      if f.testBit (64 - (i + 1)) = true then leadingPower f i * 2 ^ ((1 : ℝ) / 2 ^ (i + 1)) else leadingPower f i := by
  have hexponent (n b : Nat) : ((2 * n + b : Nat) : ℝ) / 2 ^ (i + 1) = n / 2 ^ i + b / 2 ^ (i + 1) := by
    push_cast
    field_simp
    ring
  rw [leadingPower, leadingBits_succ f hi, hexponent, Real.rpow_add (by norm_num), ← leadingPower]
  split_ifs with hbit
  · rw [hbit, Bool.toNat_true, Nat.cast_one]
  · rw [Bool.eq_false_of_not_eq_true hbit, Bool.toNat_false, Nat.cast_zero, zero_div, Real.rpow_zero, mul_one]

/-- A table entry is the root it stands for, floored to 127 fraction bits (R21). -/
theorem romT_bounds {i : Nat} (h1 : 1 ≤ i) (h2 : i ≤ 64) :
    ((Rom.t i).toNat : ℝ) ≤ 2 ^ ((1 : ℝ) / 2 ^ i) * 2 ^ 127 ∧
      (2 : ℝ) ^ ((1 : ℝ) / 2 ^ i) * 2 ^ 127 < (Rom.t i).toNat + 1 := by
  rw [floor_of_squaresBackToTwo (romT_squaresBackToTwo h1 h2)]
  exact ⟨Nat.floor_le (by positivity), Nat.lt_floor_add_one _⟩

/-- One table step never exceeds the product with the exact root (R101). -/
theorem tableStep_le (m : Nat) {i : Nat} (h1 : 1 ≤ i) (h2 : i ≤ 64) :
    ((m * (Rom.t i).toNat / 2 ^ 127 : Nat) : ℝ) ≤ m * 2 ^ ((1 : ℝ) / 2 ^ i) := by
  obtain ⟨hentry, -⟩ := romT_bounds h1 h2
  obtain ⟨hfloor, -⟩ := cast_div_bounds (m * (Rom.t i).toNat) (2 ^ 127)
  push_cast at hfloor
  rw [le_div_iff₀ (by positivity)] at hfloor
  have hprod := mul_le_mul_of_nonneg_left hentry (m.cast_nonneg : (0 : ℝ) ≤ m)
  linarith

/-- One table step is less than 3 units below the product with the exact root: less than 2 from the floor of the entry, and
less than 1 from the floor of the product. -/
theorem lt_tableStep {m i : Nat} (hm : m < 2 ^ 128) (h1 : 1 ≤ i) (h2 : i ≤ 64) :
    m * 2 ^ ((1 : ℝ) / 2 ^ i) - 3 < ((m * (Rom.t i).toNat / 2 ^ 127 : Nat) : ℝ) := by
  obtain ⟨-, hentry⟩ := romT_bounds h1 h2
  obtain ⟨-, hceil⟩ := cast_div_bounds (m * (Rom.t i).toNat) (2 ^ 127)
  have hm' : (m : ℝ) < 2 ^ 128 := by exact_mod_cast hm
  push_cast at hceil
  rw [div_lt_iff₀ (by positivity)] at hceil
  have hprod := mul_le_mul_of_nonneg_left hentry.le (m.cast_nonneg : (0 : ℝ) ≤ m)
  linarith

/-- The product never exceeds the power it follows (R101). -/
theorem exp2Product_le {f : Nat} (hf : f < 2 ^ 64) {i : Nat} (hi : i ≤ 64) :
    (exp2Product f i : ℝ) ≤ 2 ^ 127 * leadingPower f i := by
  induction i with
  | zero =>
    rw [exp2Product, leadingPower_zero hf]
    norm_num
  | succ i ih =>
    have hprod := ih (by omega)
    rw [exp2Product, leadingPower_succ f (by omega)]
    split_ifs
    · refine (tableStep_le (exp2Product f i) (by omega) hi).trans ?_
      rw [← mul_assoc]
      gcongr
    · exact hprod

/-- The product stays in Q1.127 (R101). -/
theorem inQ127_exp2Product {f : Nat} (hf : f < 2 ^ 64) {i : Nat} (hi : i ≤ 64) : InQ127 (exp2Product f i) := by
  have hle := exp2Product_le hf hi
  have hlt := leadingPower_lt_two hf hi
  exact ⟨exp2Product_ge f hi, by exact_mod_cast hle.trans_lt (by linarith : _ < (2 : ℝ) ^ 128)⟩

/-- Each table step adds at most 3 units of `2^-127` to the loss, in proportion to the power. -/
theorem le_exp2Product {f : Nat} (hf : f < 2 ^ 64) {i : Nat} (hi : i ≤ 64) :
    (2 ^ 127 - 3 * i) * leadingPower f i ≤ exp2Product f i := by
  induction i with
  | zero =>
    rw [exp2Product, leadingPower_zero hf]
    norm_num
  | succ i ih =>
    have hprod := ih (by omega)
    have hpower := one_le_leadingPower f (i + 1)
    obtain ⟨-, hlt⟩ := inQ127_exp2Product hf (i := i) (by omega)
    rw [exp2Product]
    rw [leadingPower_succ f (by omega)] at hpower ⊢
    rw [Nat.cast_add_one]
    split_ifs at hpower ⊢
    · have hstep := lt_tableStep hlt (i := i + 1) (by omega) hi
      have hroot := mul_le_mul_of_nonneg_right hprod (by positivity : (0 : ℝ) ≤ 2 ^ ((1 : ℝ) / 2 ^ (i + 1)))
      linarith
    · linarith

/-! ### The factor `2^f` and its scaling -/

/-- The power of the whole fraction. -/
theorem leadingPower_64 (f : Nat) : leadingPower f 64 = 2 ^ ((f : ℝ) / 2 ^ 64) := by
  rw [leadingPower, Nat.sub_self, pow_zero, Nat.div_one]

/-- The factor `2^f` is a FixedPoint value in `[1, 2)` (R101). -/
theorem exp2Fraction_bounds {f : Nat} (hf : f < 2 ^ 64) : 2 ^ 64 ≤ exp2Fraction f ∧ exp2Fraction f < 2 ^ 65 := by
  obtain ⟨hlo, hhi⟩ := inQ127_exp2Product hf le_rfl
  rw [exp2Fraction_eq]
  omega

/-- The factor `2^f` against the real power: one unit from its floor, and the loss of the product, below `2^-50` of a unit. -/
theorem exp2Fraction_error {f : Nat} (hf : f < 2 ^ 64) :
    (exp2Fraction f : ℝ) ≤ 2 ^ 64 * 2 ^ ((f : ℝ) / 2 ^ 64) ∧
      2 ^ 64 * 2 ^ ((f : ℝ) / 2 ^ 64) < (exp2Fraction f : ℝ) + 1 + 1 / 2 ^ 50 := by
  have hle := exp2Product_le hf le_rfl
  have hge := le_exp2Product hf le_rfl
  have htwo := leadingPower_lt_two hf le_rfl
  obtain ⟨hfloor, hceil⟩ := cast_div_bounds (exp2Product f 64) (2 ^ 63)
  rw [← exp2Fraction_eq] at hfloor hceil
  push_cast at hfloor hceil hge
  rw [leadingPower_64] at hle hge htwo
  constructor <;> linarith

/-- The result of R101's last step: `y * 2^k` for `k >= 0`, and the floor of `y / 2^(-k)` for `k < 0`. -/
def exp2Scaled (y : Nat) (k : Int) : Int := if 0 ≤ k then y * 2 ^ k.toNat else asr y (-k).toNat

theorem exp2Scaled_natCast (y n : Nat) : exp2Scaled y n = y * 2 ^ n := by
  rw [exp2Scaled, if_pos (by omega), Int.toNat_natCast]

theorem exp2Scaled_neg (y : Nat) {n : Nat} (hn : n ≠ 0) : exp2Scaled y (-n) = y / 2 ^ n := by
  rw [exp2Scaled, if_neg (by omega), neg_neg, Int.toNat_natCast, asr_eq_div]

/-- An integer is a natural number or the negation of one that is not 0. -/
theorem int_cases_sign (k : Int) : (∃ n : Nat, k = n) ∨ ∃ n : Nat, n ≠ 0 ∧ k = -n := by
  rcases le_or_gt 0 k with h | h
  · exact .inl ⟨k.toNat, by omega⟩
  · exact .inr ⟨(-k).toNat, by omega, by omega⟩

/-- The scaled factor is at least 2 and in range over the domain of `EXP2` (R101). -/
theorem exp2Scaled_bounds {y : Nat} {k : Int} (h1 : 2 ^ 64 ≤ y) (h2 : y < 2 ^ 65) (hk1 : -63 ≤ k) (hk2 : k ≤ 62) :
    2 ≤ exp2Scaled y k ∧ exp2Scaled y k ≤ 2 ^ 127 - 1 := by
  rcases int_cases_sign k with ⟨n, rfl⟩ | ⟨n, hn, rfl⟩
  · have hpow : (2 : Int) ^ n ≤ 2 ^ 62 := pow_le_pow_right₀ (by norm_num) (by omega)
    have hone : (1 : Int) ≤ 2 ^ n := one_le_pow₀ (by norm_num)
    rw [exp2Scaled_natCast]
    constructor <;> nlinarith
  · have hpow : (2 : Int) ^ n ≤ 2 ^ 63 := pow_le_pow_right₀ (by norm_num) (by omega)
    have hpos : (0 : Int) < 2 ^ n := by positivity
    have hle : (y : Int) / 2 ^ n ≤ y := Int.ediv_le_self _ (by omega)
    rw [exp2Scaled_neg y hn]
    exact ⟨Int.le_ediv_of_mul_le hpos (by linarith), by omega⟩

/-- The factor 1.0 scales to the power alone (R101). -/
theorem exp2Scaled_one {k : Int} (hk : -63 ≤ k) : exp2Scaled (2 ^ 64) k = 2 ^ (64 + k).toNat := by
  rcases int_cases_sign k with ⟨n, rfl⟩ | ⟨n, hn, rfl⟩
  · rw [exp2Scaled_natCast, show (64 + (n : Int)).toNat = 64 + n by omega, pow_add]
    norm_num
  · obtain ⟨d, hd⟩ : ∃ d, 64 = d + n := ⟨64 - n, by omega⟩
    rw [exp2Scaled_neg _ hn, show (64 + -(n : Int)).toNat = d by omega, hd, pow_add]
    push_cast
    exact Int.mul_ediv_cancel _ (by positivity)

/-- The scaled factor against the scaled power. For `k >= 0` the scaling is exact and multiplies the loss of the factor by
`2^k`; for `k < 0` it divides that loss, and its own floor drops less than one unit of the result. -/
theorem exp2Scaled_error {y : Nat} {power ε : ℝ} (k : Int) (hε : 0 ≤ ε) (hlo : (y : ℝ) ≤ power)
    (hhi : power < (y : ℝ) + 1 + ε) :
    (exp2Scaled y k : ℝ) ≤ 2 ^ k * power ∧ 2 ^ k * power < (exp2Scaled y k : ℝ) + max 1 (2 ^ k) * (1 + ε) := by
  rcases int_cases_sign k with ⟨n, rfl⟩ | ⟨n, hn, rfl⟩
  · have hone : (1 : ℝ) ≤ 2 ^ n := one_le_pow₀ (by norm_num)
    rw [exp2Scaled_natCast, zpow_natCast, max_eq_right hone]
    push_cast
    constructor <;> nlinarith
  · have hone : (1 : ℝ) ≤ 2 ^ n := one_le_pow₀ (by norm_num)
    have hinv : ((2 : ℝ) ^ n)⁻¹ ≤ 1 := inv_le_one_of_one_le₀ hone
    have hfloor : (y : Int) / 2 ^ n * 2 ^ n ≤ y := Int.ediv_mul_le _ (by positivity)
    have hceil : (y : Int) + 1 ≤ ((y : Int) / 2 ^ n + 1) * 2 ^ n :=
      Int.lt_ediv_add_one_mul_self _ (by positivity)
    rw [exp2Scaled_neg y hn, zpow_neg, zpow_natCast, max_eq_left hinv, inv_mul_eq_div, le_div_iff₀ (by positivity),
      div_lt_iff₀ (by positivity)]
    generalize (y : Int) / 2 ^ n = z at hfloor hceil ⊢
    rify at hfloor hceil
    constructor <;> nlinarith

/-! ### `EXP2` -/

/-- The domain `[-63, 63)` of `EXP2`, on raw values (R101). -/
abbrev InExp2Domain (x : Int) : Prop := -63 * 2 ^ 64 ≤ x ∧ x < 63 * 2 ^ 64

/-- An operand of `EXP2` in its domain by its integer part and its fraction (R101). -/
theorem exists_split_of_domain {x : Int} (h : InExp2Domain x) :
    ∃ (k : Int) (f : Nat), x = k * 2 ^ 64 + f ∧ f < 2 ^ 64 ∧ -63 ≤ k ∧ k ≤ 62 :=
  ⟨x / 2 ^ 64, (x % 2 ^ 64).toNat, by omega, by omega, by omega, by omega⟩

/-- `F_SHIFT` of the factor `2^f` by the integer part (R101, R78). -/
theorem fShift_eq_exp2Scaled {y : Nat} {k : Int} (h1 : 2 ^ 64 ≤ y) (h2 : y < 2 ^ 65) (hk1 : -63 ≤ k) (hk2 : k ≤ 62) :
    fShift (enc y) (enc k) = .ok (enc (exp2Scaled y k)) := by
  obtain ⟨hlo, hhi⟩ := exp2Scaled_bounds h1 h2 hk1 hk2
  have hy : (enc y).toInt = y := enc_toInt (by omega) (by omega)
  have hk : (enc k).toInt = k := enc_toInt (by omega) (by omega)
  rw [exp2Scaled] at hlo hhi ⊢
  split_ifs at hlo hhi ⊢ with h
  · rw [fShift_of_nonneg (by rwa [hk]), hy, hk, ret_ok (by omega) hhi]
  · rw [fShift_of_neg (by omega), hy, hk]

/-- `F_EXP2` inside its domain (R101). -/
theorem fExp2_of_split {a : Word} {k : Int} {f : Nat} (ha : a.toInt = k * 2 ^ 64 + f) (hf : f < 2 ^ 64) (hk1 : -63 ≤ k)
    (hk2 : k ≤ 62) : fExp2 a = .ok (enc (exp2Scaled (exp2Fraction f) k)) := by
  obtain ⟨h1, h2⟩ := exp2Fraction_bounds hf
  have hk : asr (k * 2 ^ 64 + f) 64 = k := by
    rw [asr_eq_div]
    omega
  rw [fExp2, rawOf_eq, ha, if_neg (by omega), hk, add_sub_cancel_left, Int.toNat_natCast,
    fShift_eq_exp2Scaled h1 h2 hk1 hk2]

/-- `F_EXP2` outside its domain (R101). -/
theorem fExp2_of_not_domain {a : Word} (h : ¬InExp2Domain a.toInt) : fExp2 a = .fail .overflow :=
  if_pos (by rw [rawOf_eq]; omega)

/-- `EXP2` inside its domain commits the word that spells the scaled factor (R101, R55). -/
theorem exec_exp2_of_split {s : State} {k : Int} {f : Nat} (ha : s.a.toInt = k * 2 ^ 64 + f) (hf : f < 2 ^ 64)
    (hk1 : -63 ≤ k) (hk2 : k ≤ 62) :
    ∃ v : Word, exec .exp2 s = .next (okState v s) ∧ v.toInt = exp2Scaled (exp2Fraction f) k := by
  obtain ⟨h1, h2⟩ := exp2Fraction_bounds hf
  obtain ⟨hlo, hhi⟩ := exp2Scaled_bounds h1 h2 hk1 hk2
  exact exec_of_opFunction_enc rfl (fExp2_of_split ha hf hk1 hk2) ⟨by omega, hhi⟩

/-- Settles O41: the products are those of `exp2Product`. -/
theorem exp2Datapath : Obligations.Exp2Datapath := by
  refine fun s => ⟨decode_encode .exp2, fun h => ?_, fun hdom => ?_⟩
  · exact exec_of_opFunction_fail (i := .exp2) rfl (fExp2_of_not_domain (by omega))
  · obtain ⟨k, f, ha, hf, hk1, hk2⟩ := exists_split_of_domain hdom
    obtain ⟨v, hexec, hv⟩ := exec_exp2_of_split ha hf hk1 hk2
    obtain ⟨hy1, hy2⟩ := exp2Fraction_bounds hf
    refine ⟨v, k, f, exp2Fraction f, exp2Product f, hexec, ha, hf, hk1, hk2, rfl, fun i hi => ?_,
      fun i hi => inQ127_exp2Product hf hi, exp2Fraction_eq f, hy1, hy2, fun hk => ?_, fun hk => ?_, ?_, fun hf0 => ?_⟩
    · obtain ⟨j, rfl⟩ : ∃ j, i = j + 1 := ⟨i - 1, by omega⟩
      rfl
    · rw [hv, exp2Scaled, if_pos hk]
    · rw [hv, exp2Scaled, if_neg (by omega), asr_eq_floor, Int.cast_natCast]
    · rw [hv]
      exact (exp2Scaled_bounds hy1 hy2 hk1 hk2).1
    · rw [hv, exp2Fraction_eq, hf0, exp2Product_zero]
      exact exp2Scaled_one hk1

/-! ### The error of `EXP2` -/

/-- The power of an operand by its integer part, which is its floor, and its fraction. -/
theorem rpow_of_split {x k : Int} {f : Nat} (hx : x = k * 2 ^ 64 + f) (hf : f < 2 ^ 64) :
    (2 : ℝ) ^ ((x : ℝ) / 2 ^ 64) = 2 ^ k * 2 ^ ((f : ℝ) / 2 ^ 64) ∧ ⌊(x : ℝ) / 2 ^ 64⌋ = k := by
  have hsplit : (x : ℝ) / 2 ^ 64 = k + f / 2 ^ 64 := by
    rw [hx]
    push_cast
    ring
  have hf' : (f : ℝ) < 2 ^ 64 := by exact_mod_cast hf
  have hfloor : ⌊(f : ℝ) / 2 ^ 64⌋ = 0 := by
    rw [Int.floor_eq_zero_iff]
    exact ⟨by positivity, (div_lt_one (by positivity)).2 hf'⟩
  rw [hsplit, Real.rpow_add (by norm_num), Real.rpow_intCast, Int.floor_intCast_add, hfloor, add_zero]
  exact ⟨rfl, rfl⟩

/-- Settles O43. -/
theorem exp2ErrorAgainstTheRealExponential : Obligations.Exp2ErrorAgainstTheRealExponential := by
  intro s hdom
  obtain ⟨k, f, ha, hf, hk1, hk2⟩ := exists_split_of_domain hdom
  obtain ⟨v, hexec, hv⟩ := exec_exp2_of_split ha hf hk1 hk2
  obtain ⟨hfrac1, hfrac2⟩ := exp2Fraction_error hf
  obtain ⟨hlo, hhi⟩ := exp2Scaled_error k (by positivity) hfrac1 hfrac2
  obtain ⟨hpower, hfloor⟩ := rpow_of_split ha hf
  refine ⟨v, hexec, ?_⟩
  rw [hpower, hfloor, hv, div_le_iff₀ (by positivity), lt_div_iff₀ (by positivity)]
  constructor <;> linarith

/-! ### `EXP` -/

/-- The exponent that `EXP` gives to `EXP2`: the product with `ROM.LOG2E`, floored (R102, R76). -/
def expExponent (a : Word) : Int := a.toInt * Rom.log2e.toInt / 2 ^ 64

theorem fMul_romLog2e (a : Word) : fMul a Rom.log2e = ret (expExponent a) := by
  rw [fMul, rawOf_eq, rawOf_eq, asr_eq_div, expExponent]

/-- The ends of R102's interval: the exponent is in the domain of `EXP2` exactly between them. -/
theorem exp_interval_iff (a : Word) :
    ((0xFFFFFFFFFFFFFFD454EC1A035DF10EAB#128).toInt ≤ a.toInt ∧
      a.toInt ≤ (0x000000000000002BAB13E5FCA20EF155#128).toInt) ↔
      InExp2Domain (expExponent a) := by
  have hlo : (0xFFFFFFFFFFFFFFD454EC1A035DF10EAB#128).toInt = -805537444647767306581 := by decide
  have hhi : (0x000000000000002BAB13E5FCA20EF155#128).toInt = 805537444647767306581 := by decide
  have hlog2e : Rom.log2e.toInt = 26613026195688644983 := by decide
  rw [hlo, hhi, expExponent, hlog2e]
  omega

/-- `F_EXP` inside the interval of R102. -/
theorem fExp_of_interval {a : Word} (h : InExp2Domain (expExponent a)) : ∃ v : Word, fExp a = .ok v ∧ 2 ≤ v.toInt := by
  obtain ⟨k, f, hx, hf, hk1, hk2⟩ := exists_split_of_domain h
  obtain ⟨hy1, hy2⟩ := exp2Fraction_bounds hf
  obtain ⟨hlo, hhi⟩ := exp2Scaled_bounds hy1 hy2 hk1 hk2
  have hprod : (enc (expExponent a)).toInt = k * 2 ^ 64 + f := by
    rw [enc_toInt (by omega) (by omega), hx]
  refine ⟨enc (exp2Scaled (exp2Fraction f) k), ?_, by rwa [enc_toInt (by omega) hhi]⟩
  rw [fExp, fMul_romLog2e, ret_ok (by omega) (by omega), andThen_ok, fExp2_of_split hprod hf hk1 hk2]

/-- `F_EXP` outside the interval of R102: the product overflows, or is outside the domain of `EXP2`. -/
theorem fExp_of_not_interval {a : Word} (h : ¬InExp2Domain (expExponent a)) : fExp a = .fail .overflow := by
  rw [fExp, fMul_romLog2e]
  rcases ret_cases (expExponent a) with ⟨-, v, hv, hret⟩ | ⟨-, hret⟩
  · rw [hret, andThen_ok, fExp2_of_not_domain (by rwa [hv])]
  · rw [hret, andThen_fail]

/-- `EXP` answers what `MUL` by `ROM.LOG2E` and `EXP2` answer in turn (R102). -/
theorem exec_exp_eq_mul_exp2 (s : State) :
    ∃ t u, exec .exp s = .next t ∧ exec .mul { s with b := Rom.log2e } = .next u ∧
      (u.st = ⟨0, true⟩ → ∃ w, exec .exp2 { u with a := u.r } = .next w ∧
        t.st = w.st ∧ t.rsp = w.rsp ∧ (t.st = ⟨0, true⟩ → t.r = w.r)) ∧
      (u.st ≠ ⟨0, true⟩ → t = failState 1 s) := by
  refine ⟨_, _, exec_of_isExec rfl s, exec_of_isExec rfl _, ?_⟩
  simp only [opFunction, fExp]
  rcases fMul_cases s.a Rom.log2e with ⟨v, hmul⟩ | hmul
  · rw [hmul, andThen_ok, commitResult_ok]
    refine ⟨fun _ => ⟨_, exec_of_isExec rfl _, ?_⟩, fun hne => absurd rfl hne⟩
    simp only [opFunction, okState_r]
    rcases commitResult_cases (fExp2 v) s with ⟨w, hres, -⟩ | ⟨e, hres, -⟩ <;> simp [hres]
  · rw [hmul, andThen_fail, commitResult_fail]
    exact ⟨fun hst => by simp [FailKind.code] at hst, fun _ => rfl⟩

/-- Settles O42. -/
theorem expResult : Obligations.ExpResult := by
  refine fun s => ⟨decode_encode .exp, exec_exp_eq_mul_exp2 s, fun h => ?_, fun h => ?_⟩
  · obtain ⟨v, hexp, hv⟩ := fExp_of_interval ((exp_interval_iff s.a).1 h)
    exact ⟨v, exec_of_opFunction_ok rfl hexp, hv⟩
  · have hnot := mt (exp_interval_iff s.a).2 (by omega)
    exact exec_of_opFunction_fail (i := .exp) rfl (fExp_of_not_interval hnot)

end Sys2Proof.Proofs

/-! PROOF. The obligations on errors and on the steps between commands (spec/60_exceptions.md, spec/70_reset_and_hazards.md):
the rows of R121, an idle step, and a reset input. -/

namespace Sys2Proof.Proofs

open Sys2Proof Sys2Proof.Machine Sys2Proof.Laws

/-! ### The kinds an outcome can fail with -/

/-- A result that fails, if it does, with one of the given kinds. -/
def FailsOnlyWith (kinds : List FailKind) (res : Result) : Prop := ∀ k, res = .fail k → k ∈ kinds

theorem failsOnlyWith_ok (kinds : List FailKind) (v : Word) : FailsOnlyWith kinds (.ok v) :=
  fun _ h => nomatch h

theorem failsOnlyWith_fail {kinds : List FailKind} {k : FailKind} (hk : k ∈ kinds) : FailsOnlyWith kinds (.fail k) := by
  rintro _ ⟨⟩
  exact hk

/-- A `raise` under a condition, before the rest of an operation (00_scope.md section 5.3). -/
theorem failsOnlyWith_raise {kinds : List FailKind} {k : FailKind} {res : Result} (p : Prop) [Decidable p]
    (hk : k ∈ kinds) (hres : FailsOnlyWith kinds res) : FailsOnlyWith kinds (if p then .fail k else res) := by
  split_ifs
  · exact failsOnlyWith_fail hk
  · exact hres

/-- The range test raises Overflow and nothing else (00_scope.md section 5.3). -/
theorem failsOnlyWith_ret {kinds : List FailKind} (hk : .overflow ∈ kinds) (z : Int) : FailsOnlyWith kinds (ret z) := by
  rcases ret_cases z with ⟨_, v, _, h⟩ | ⟨_, h⟩ <;> rw [h]
  · exact failsOnlyWith_ok kinds v
  · exact failsOnlyWith_fail hk

/-- A failure of an inner operation is the outer one's own (00_scope.md section 5.3). -/
theorem failsOnlyWith_andThen {kinds : List FailKind} {res : Result} {f : Word → Result}
    (hres : FailsOnlyWith kinds res) (hf : ∀ v, FailsOnlyWith kinds (f v)) : FailsOnlyWith kinds (res.andThen f) := by
  cases res with
  | ok v => exact hf v
  | fail k => exact failsOnlyWith_fail (hres k rfl)

/-! ### The operations whose row is Overflow alone, by more than a range test -/

theorem fAbs_failsOnlyWith (a : Word) : FailsOnlyWith [.overflow] (fAbs a) := by
  by_cases h : a.toInt = -2 ^ 127
  · rw [fAbs, rawOf_eq, if_pos h]
    exact failsOnlyWith_fail (by decide)
  · rw [fAbs_of_ne_min h]
    exact failsOnlyWith_ok _ _

theorem fShift_failsOnlyWith (a b : Word) : FailsOnlyWith [.overflow] (fShift a b) := by
  rcases le_or_gt 0 b.toInt with h | h
  · rw [fShift_of_nonneg h]
    exact failsOnlyWith_ret (by decide) _
  · rw [fShift_of_neg h]
    exact failsOnlyWith_ok _ _

theorem fPow_failsOnlyWith (a b : Word) : FailsOnlyWith [.overflow] (fPow a b) := by
  rw [fPow_eq_powWhile]
  rcases powWhile_cases b.toNat Rom.one a with ⟨v, h⟩ | h <;> rw [h]
  · exact failsOnlyWith_ok _ v
  · exact failsOnlyWith_fail (by decide)

theorem fExp2_failsOnlyWith (a : Word) : FailsOnlyWith [.overflow] (fExp2 a) :=
  failsOnlyWith_raise _ (by decide) (fShift_failsOnlyWith _ _)

theorem fExp_failsOnlyWith (a : Word) : FailsOnlyWith [.overflow] (fExp a) :=
  failsOnlyWith_andThen (failsOnlyWith_ret (by decide) _) fExp2_failsOnlyWith

/-! ### The rows of R121 -/

/-- The kinds in a command's rows of R121, in the order its rule tests them (R124). -/
def rowKinds : Instr → List FailKind
  | .wra _ | .wrb _ | .rdr | .rdst | .toint | .avg => []
  | .touint => [.negativeValue]
  | .fromint | .fromuint | .add | .sub | .abs | .mul | .shift | .pow | .exp2 | .exp => [.overflow]
  | .inv | .div => [.divisionByZero, .overflow]
  | .gavg => [.domainError, .overflow]
  | .sqrt | .log2 => [.domainError]

/-- Every operation fails only with the kinds of its rows: by the `raise`s its rule writes, and the operations it calls. -/
theorem opFunction_failsOnlyWith (i : Instr) (a b : Word) : FailsOnlyWith (rowKinds i) (opFunction i a b) := by
  cases i with
  | wra | wrb | rdr | rdst | toint | avg => exact failsOnlyWith_ok _ _
  | fromint | touint | fromuint | sqrt | log2 => exact failsOnlyWith_raise _ (by decide) (failsOnlyWith_ok _ _)
  | add | sub | mul => exact failsOnlyWith_ret (by decide) _
  | inv | div | gavg => exact failsOnlyWith_raise _ (by decide) (failsOnlyWith_ret (by decide) _)
  | abs => exact fAbs_failsOnlyWith a
  | shift => exact fShift_failsOnlyWith a b
  | pow => exact fPow_failsOnlyWith a b
  | exp2 => exact fExp2_failsOnlyWith a
  | exp => exact fExp_failsOnlyWith a

/-- What an `EXEC` answers: 0, or the code of a kind its result can fail with (R55, R122). -/
theorem commitResult_answers {kinds : List FailKind} {res : Result} (h : FailsOnlyWith kinds res) (s : State) :
    ∃ p, (commitResult res s).rsp = some p ∧ p.err ∈ 0 :: kinds.map FailKind.code := by
  rcases commitResult_cases res s with ⟨v, _, hc⟩ | ⟨k, hk, hc⟩ <;> rw [hc]
  · exact ⟨_, rfl, List.mem_cons_self⟩
  · exact ⟨_, rfl, List.mem_cons_of_mem _ (List.mem_map_of_mem (h k hk))⟩

/-- What a command answers: 0, or the code of a kind in its rows. -/
theorem exec_answers_rowKinds (i : Instr) (s : State) :
    ∃ t, exec i s = .next t ∧ ∃ p, t.rsp = some p ∧ p.err ∈ 0 :: (rowKinds i).map FailKind.code := by
  rcases exec_cases i s with ⟨din, _, he⟩ | ⟨din, _, he⟩ | ⟨_, he⟩ | ⟨_, he⟩ | ⟨_, he⟩
  case inr.inr.inr.inr => exact ⟨_, he, commitResult_answers (opFunction_failsOnlyWith i s.a s.b) s⟩
  all_goals exact ⟨_, he, _, rfl, List.mem_cons_self⟩

/-- Settles O16: the codes R120 gives to the kinds of `rowKinds` are those of R121's rows. -/
theorem eachCommandRaisesOnlyItsKinds : Obligations.EachCommandRaisesOnlyItsKinds := by
  intro i s
  obtain ⟨t, ht, p, hrsp, herr⟩ := exec_answers_rowKinds i s
  refine ⟨t, ht, p, hrsp, ?_⟩
  cases i <;> exact herr

/-! ### Idle steps and reset inputs -/

/-- A step with nothing pending is idle (R126, R130). -/
theorem step_of_idle {s : State} (h : s.inputs = []) : step s = .next s := by
  rcases step_cases s with ⟨_, hs⟩ | ⟨p, rest, h', _⟩ | ⟨c, i, rest, h', _⟩ | ⟨c, e, rest, h', _⟩
  case inl => exact hs
  all_goals cases h.symm.trans h'

/-- A step takes a pending reset (R140). -/
theorem step_of_reset {s : State} {p : Option Command} {rest : List Input} (h : s.inputs = .reset p :: rest) :
    step s = .next (takeReset p (takenInput rest s)) := by
  rcases step_cases s with ⟨h', _⟩ | ⟨p', rest', h', hs⟩ | ⟨c, i, rest', h', _⟩ | ⟨c, e, rest', h', _⟩ <;>
    cases h.symm.trans h'
  exact hs

/-- Settles O7: the state a reset leaves does not depend on the command it found in progress. -/
theorem idleAndResetSteps : Obligations.IdleAndResetSteps := by
  refine ⟨fun s h => step_of_idle h, fun s p q rest => ?_⟩
  have hp := step_of_reset (s := { s with inputs := .reset p :: rest }) rfl
  have hq := step_of_reset (s := { s with inputs := .reset q :: rest }) rfl
  exact ⟨_, hp, hq.trans (congrArg _ (takeReset_inProgress q p _)), rfl, rfl, rfl⟩

end Sys2Proof.Proofs
